-- ==== Sys2Proof/Config.lean ====
section
/-! DEFINITION. The implementation parameters of one unit (00_scope.md section 2): the bit width N, the storage
width W, the kind SIGNED and the overflow-check mode CHK. They are fixed when a unit is built and the model takes
them as arguments: a machine state carries the `Config` of its unit, no step changes it, and every statement about
all states is a statement about every legal instantiation. -/

namespace Sys2Proof

/-- The storage width W is one of 8, 16, 32, 64, 128 (R5). -/
inductive Width where
  | w8
  | w16
  | w32
  | w64
  | w128
deriving DecidableEq, Repr

/-- The number of bits of a storage width (R5). -/
def Width.bits : Width → Nat
  | .w8 => 8
  | .w16 => 16
  | .w32 => 32
  | .w64 => 64
  | .w128 => 128

/-- `Wmin(N)`, the smallest native width of at least N bits, for `N ≤ 128` (R5). -/
def Width.least (N : Nat) : Width :=
  if N ≤ 8 then .w8 else if N ≤ 16 then .w16 else if N ≤ 32 then .w32 else if N ≤ 64 then .w64 else .w128

/-- One instantiation (N, W, SIGNED, CHK). The invariant `1 ≤ N ≤ W` of R4 is part of the data, so that an illegal
instantiation is no term; `N = W` is legal (90_conflicts.md C1, decision D39), and so is a signed unit with `N = 1`
(90_conflicts.md C7). -/
structure Config where
  /-- The bit width N (R4). -/
  N : Nat
  /-- The storage width W, by default `Wmin(N)` (R5). -/
  W : Width := Width.least N
  /-- SIGNED: the narrow-signed unit when true, the narrow-unsigned unit when false (R6). -/
  signed : Bool
  /-- CHK: overflow of `ADD` and `SUB` is fatal when true, wraps when false (R7). -/
  chk : Bool
  one_le_N : 1 ≤ N
  N_le_W : N ≤ W.bits
deriving DecidableEq, Repr

/-- The published instantiations (R3): N in 1..127 other than the native widths, stored in `Wmin(N)`. -/
def Config.isPublished (c : Config) : Bool :=
  decide (c.N ≤ 127) && !([8, 16, 32, 64].contains c.N) && decide (c.W = Width.least c.N)

/-- The unit `u5` of the spec's examples (N = 5, W = 8, unsigned), in either check mode. -/
def Config.u5 (chk : Bool) : Config := ⟨5, .w8, false, chk, by decide, by decide⟩

/-- The unit `i7` of the spec's examples (N = 7, W = 8, signed), in either check mode. -/
def Config.i7 (chk : Bool) : Config := ⟨7, .w8, true, chk, by decide, by decide⟩

/-- The instantiation that `State.reset` has. DESIGN CHOICE (notes/assumptions/1.md): the spec leaves N, SIGNED and
CHK open; this is the unit of program P1, `u5` with CHK = 1. -/
def Config.default : Config := Config.u5 true

end Sys2Proof
end

