-- ==== Sys2Proof/Word.lean ====
section
/-! DEFINITION. The word types: storage words of a unit, command words, value register numbers and the shift
amount. Bit 0 is the least significant bit of every word (R41). -/

namespace Sys2Proof

/-- A storage word of a unit: W bits (R5, R20). -/
abbrev Word (c : Config) := BitVec c.W.bits

/-- The 32-bit command word on the `cmd` port (R50). -/
abbrev CmdWord := BitVec 32

/-- The number of a value register: 0..15, all valid (R8, R53). -/
abbrev Reg := Fin 16

/-- The immediate `imm8`: the shift amount, 0..255 (R53). -/
abbrev Imm8 := BitVec 8

end Sys2Proof
end

