-- ==== Sys2Proof/Syntax.lean ====
section
/-! DEFINITION. The 20 commands, one constructor per row of spec/opcode_table.json (R54). The operands are those the
command's format uses (R52), destination first (R64); the W-bit operand of the construction commands is no part of
the command, it comes on the `din` port (R32). -/

namespace Sys2Proof

/-- A command of the unit (R54). -/
inductive Instr where
  /-- `NEW xd`: strict construction from `din` (R70). -/
  | new (rd : Reg)
  /-- `TRYNEW xd`: validated construction from `din` (R71). -/
  | tryNew (rd : Reg)
  /-- `TNEW xd`: truncating construction from `din` (R72). -/
  | tNew (rd : Reg)
  /-- `RAWNEW xd`: unchecked construction from `din` (R73). -/
  | rawNew (rd : Reg)
  /-- `LDMIN xd`: the constant MIN (R74). -/
  | ldMin (rd : Reg)
  /-- `LDMAX xd`: the constant MAX (R75). -/
  | ldMax (rd : Reg)
  /-- `COPY xd, xa`: copy by value (R76). -/
  | copy (rd rs1 : Reg)
  /-- `MASK xd, xa`: canonicalise (R82). -/
  | mask (rd rs1 : Reg)
  /-- `ADD xd, xa, xb`: mode-dependent add (R90). -/
  | add (rd rs1 rs2 : Reg)
  /-- `SUB xd, xa, xb`: mode-dependent subtract (R91). -/
  | sub (rd rs1 rs2 : Reg)
  /-- `WADD xd, xa, xb`: wrapping add (R92). -/
  | wadd (rd rs1 rs2 : Reg)
  /-- `WSUB xd, xa, xb`: wrapping subtract (R93). -/
  | wsub (rd rs1 rs2 : Reg)
  /-- `AND xd, xa, xb` (R101). -/
  | and (rd rs1 rs2 : Reg)
  /-- `OR xd, xa, xb` (R102). -/
  | or (rd rs1 rs2 : Reg)
  /-- `XOR xd, xa, xb` (R103). -/
  | xor (rd rs1 rs2 : Reg)
  /-- `NOT xd, xa` (R104). -/
  | not (rd rs1 : Reg)
  /-- `SHL xd, xa, k`: shift left (R110). -/
  | shl (rd rs1 : Reg) (imm8 : Imm8)
  /-- `SHR xd, xa, k`: shift right (R111). -/
  | shr (rd rs1 : Reg) (imm8 : Imm8)
  /-- `CMP xa, xb`: compare (R120). -/
  | cmp (rs1 rs2 : Reg)
  /-- `GET xa`: extraction to `DOUT` (R130). -/
  | get (rs1 : Reg)
deriving DecidableEq, Repr

/-- The mnemonic of a command, as the opcode map spells it (R54). -/
def Instr.mnemonic : Instr → String
  | .new _ => "NEW"
  | .tryNew _ => "TRYNEW"
  | .tNew _ => "TNEW"
  | .rawNew _ => "RAWNEW"
  | .ldMin _ => "LDMIN"
  | .ldMax _ => "LDMAX"
  | .copy _ _ => "COPY"
  | .mask _ _ => "MASK"
  | .add _ _ _ => "ADD"
  | .sub _ _ _ => "SUB"
  | .wadd _ _ _ => "WADD"
  | .wsub _ _ _ => "WSUB"
  | .and _ _ _ => "AND"
  | .or _ _ _ => "OR"
  | .xor _ _ _ => "XOR"
  | .not _ _ => "NOT"
  | .shl _ _ _ => "SHL"
  | .shr _ _ _ => "SHR"
  | .cmp _ _ => "CMP"
  | .get _ => "GET"

/-- The registers a command reads: those its format names as sources (R20, R52). -/
def Instr.reads : Instr → List Reg
  | .new _ | .tryNew _ | .tNew _ | .rawNew _ | .ldMin _ | .ldMax _ => []
  | .copy _ a | .mask _ a | .not _ a | .shl _ a _ | .shr _ a _ | .get a => [a]
  | .add _ a b | .sub _ a b | .wadd _ a b | .wsub _ a b | .and _ a b | .or _ a b | .xor _ a b | .cmp a b => [a, b]

/-- The destination register of a command, none for formats P and G (R20, R52). -/
def Instr.dest : Instr → Option Reg
  | .new d | .tryNew d | .tNew d | .rawNew d | .ldMin d | .ldMax d => some d
  | .copy d _ | .mask d _ | .not d _ | .shl d _ _ | .shr d _ _ => some d
  | .add d _ _ | .sub d _ _ | .wadd d _ _ | .wsub d _ _ | .and d _ _ | .or d _ _ | .xor d _ _ => some d
  | .cmp _ _ | .get _ => none

/-- Whether a command reads the `din` port: `NEW`, `TRYNEW`, `TNEW`, `RAWNEW` do, every other command ignores it
(R32, R52). -/
def Instr.readsDin : Instr → Bool
  | .new _ | .tryNew _ | .tNew _ | .rawNew _ => true
  | .ldMin _ | .ldMax _ | .copy _ _ | .mask _ _ | .add _ _ _ | .sub _ _ _ | .wadd _ _ _ | .wsub _ _ _ => false
  | .and _ _ _ | .or _ _ _ | .xor _ _ _ | .not _ _ | .shl _ _ _ | .shr _ _ _ | .cmp _ _ | .get _ => false

/-- The pseudo-instruction `SHLEQ xd, k` (R65). -/
def Instr.shleq (rd : Reg) (imm8 : Imm8) : Instr := .shl rd rd imm8

/-- The pseudo-instruction `SHREQ xd, k` (R65). -/
def Instr.shreq (rd : Reg) (imm8 : Imm8) : Instr := .shr rd rd imm8

end Sys2Proof
end

