-- ==== Sys2Proof/WellFormed.lean ====
section
/-! DEFINITION. Well-formedness. A command needs no check: its fields are register numbers 0..15 and an amount
0..255, all of them valid (R53), and a shift amount of W or more is a legal encoding that faults when it runs
(R112). What is checked is an instantiation given as raw numbers (R4, R5): only a checked one becomes a `Config`. -/

namespace Sys2Proof

/-- The parameters of a unit as raw numbers, before the check. The storage width may be left out (R5). -/
structure Params where
  N : Nat
  /-- The storage width in bits; left out, it is `Wmin(N)` (R5). -/
  W : Option Nat := none
  signed : Bool
  chk : Bool
deriving DecidableEq, Repr

/-- The storage width of a number of bits, where there is one (R5). -/
def Width.ofBits? : Nat → Option Width
  | 8 => some .w8
  | 16 => some .w16
  | 32 => some .w32
  | 64 => some .w64
  | 128 => some .w128
  | _ => none

/-- The storage width in bits: the one given, by default `Wmin(N)` (R5). -/
def Params.storageBits (p : Params) : Nat := p.W.getD (Width.least p.N).bits

/-- W is a native width (R5). -/
def Params.widthIsNative (p : Params) : Bool := (Width.ofBits? p.storageBits).isSome

/-- N is at least 1 (R4). -/
def Params.isNonempty (p : Params) : Bool := decide (1 ≤ p.N)

/-- N bits fit the storage (R4). -/
def Params.fitsStorage (p : Params) : Bool := decide (p.N ≤ p.storageBits)

/-- The parameters are those of a legal instantiation (R4, R5). -/
def Params.wellFormed (p : Params) : Bool := p.widthIsNative && p.isNonempty && p.fitsStorage

/-- The instantiation of legal parameters, none where a check refuses them. -/
def Params.toConfig? (p : Params) : Option Config :=
  match Width.ofBits? p.storageBits with
  | none => none
  | some W =>
    if h : 1 ≤ p.N ∧ p.N ≤ W.bits then some ⟨p.N, W, p.signed, p.chk, h.1, h.2⟩ else none

/-- The unit `uN` or `iN` of R3: N and the kind are given, and the storage width is the default `Wmin(N)` (R5). -/
def Config.ofBits? (N : Nat) (signed chk : Bool) : Option Config :=
  Params.toConfig? { N := N, signed := signed, chk := chk }

end Sys2Proof
end

