-- ==== Sys2Proof/Decode.lean ====
section
/-! DEFINITION. The command decoder and encoder (30_encoding.md), the opcode map as a table, and the host's byte
order. The decoder is total: every 32-bit word is one command or illegal, and an illegal word is rejected under the
name of what is wrong with it (R60); the machine raises `ILLEGAL` for all of them alike (R61). -/

namespace Sys2Proof

/-- The fields of a command word other than `op` (R51). -/
inductive Field where
  | rd
  | rs1
  | rs2
  | z
  | imm8
deriving DecidableEq, Repr

/-- Why a word is illegal (R60): its `op` is none of the 20, or a field its format does not use is not zero. -/
inductive Illegal where
  | unknownOpcode (op : BitVec 8)
  | mustBeZero (f : Field)
deriving DecidableEq, Repr

/-- The six formats (R52). -/
inductive Format where
  | D
  | U
  | R
  | S
  | P
  | G
deriving DecidableEq, Repr

/-- The fields a format requires to be zero (R52). -/
def Format.zeroFields : Format → List Field
  | .D => [.rs1, .rs2, .z, .imm8]
  | .U => [.rs2, .z, .imm8]
  | .R => [.z, .imm8]
  | .S => [.rs2, .z]
  | .P => [.rd, .z, .imm8]
  | .G => [.rd, .rs2, .z, .imm8]

/-- Field `op`, bits 31:24 (R51). -/
def opField (w : CmdWord) : BitVec 8 := w.extractLsb' 24 8

/-- Field `rd`, bits 23:20 (R51). -/
def rdField (w : CmdWord) : BitVec 4 := w.extractLsb' 20 4

/-- Field `rs1`, bits 19:16 (R51). -/
def rs1Field (w : CmdWord) : BitVec 4 := w.extractLsb' 16 4

/-- Field `rs2`, bits 15:12 (R51). -/
def rs2Field (w : CmdWord) : BitVec 4 := w.extractLsb' 12 4

/-- Field `z`, bits 11:8 (R51). -/
def zField (w : CmdWord) : BitVec 4 := w.extractLsb' 8 4

/-- Field `imm8`, bits 7:0 (R51). -/
def imm8Field (w : CmdWord) : Imm8 := w.extractLsb' 0 8

/-- The register a 4-bit field names (R53). -/
def regOfField (f : BitVec 4) : Reg := ⟨f.toNat, f.isLt⟩

/-- The 4-bit field that names a register (R53). -/
def fieldOfReg (r : Reg) : BitVec 4 := BitVec.ofNat 4 r.val

/-- Whether a field of a word is zero. -/
def fieldIsZero (w : CmdWord) : Field → Bool
  | .rd => rdField w == 0#4
  | .rs1 => rs1Field w == 0#4
  | .rs2 => rs2Field w == 0#4
  | .z => zField w == 0#4
  | .imm8 => imm8Field w == 0#8

/-- The command `i` if every field the format does not use is zero, else the first that is not (R51, R60). -/
def underFormat (f : Format) (w : CmdWord) (i : Instr) : Except Illegal Instr :=
  match f.zeroFields.find? (fun g => !fieldIsZero w g) with
  | some g => .error (.mustBeZero g)
  | none => .ok i

/-- The decoder (R51 to R54, R60). -/
def decode (w : CmdWord) : Except Illegal Instr :=
  let d := regOfField (rdField w)
  let a := regOfField (rs1Field w)
  let b := regOfField (rs2Field w)
  let k := imm8Field w
  match opField w with
  | 0x10#8 => underFormat .D w (.new d)
  | 0x11#8 => underFormat .D w (.tryNew d)
  | 0x12#8 => underFormat .D w (.tNew d)
  | 0x13#8 => underFormat .D w (.rawNew d)
  | 0x14#8 => underFormat .D w (.ldMin d)
  | 0x15#8 => underFormat .D w (.ldMax d)
  | 0x16#8 => underFormat .U w (.copy d a)
  | 0x17#8 => underFormat .U w (.mask d a)
  | 0x20#8 => underFormat .R w (.add d a b)
  | 0x21#8 => underFormat .R w (.sub d a b)
  | 0x22#8 => underFormat .R w (.wadd d a b)
  | 0x23#8 => underFormat .R w (.wsub d a b)
  | 0x30#8 => underFormat .R w (.and d a b)
  | 0x31#8 => underFormat .R w (.or d a b)
  | 0x32#8 => underFormat .R w (.xor d a b)
  | 0x33#8 => underFormat .U w (.not d a)
  | 0x40#8 => underFormat .S w (.shl d a k)
  | 0x41#8 => underFormat .S w (.shr d a k)
  | 0x50#8 => underFormat .P w (.cmp a b)
  | 0x60#8 => underFormat .G w (.get a)
  | op => .error (.unknownOpcode op)

/-- A command word from its fields, most significant first, `z` zero (R51). -/
def packWord (op : BitVec 8) (rd rs1 rs2 : BitVec 4) (imm8 : Imm8) : CmdWord :=
  op ++ rd ++ rs1 ++ rs2 ++ 0#4 ++ imm8

/-- The word of a format D command (R52). -/
def packD (op : BitVec 8) (d : Reg) : CmdWord := packWord op (fieldOfReg d) 0 0 0

/-- The word of a format U command (R52). -/
def packU (op : BitVec 8) (d a : Reg) : CmdWord := packWord op (fieldOfReg d) (fieldOfReg a) 0 0

/-- The word of a format R command (R52). -/
def packR (op : BitVec 8) (d a b : Reg) : CmdWord := packWord op (fieldOfReg d) (fieldOfReg a) (fieldOfReg b) 0

/-- The word of a format S command (R52). -/
def packS (op : BitVec 8) (d a : Reg) (k : Imm8) : CmdWord := packWord op (fieldOfReg d) (fieldOfReg a) 0 k

/-- The word of a format P command (R52). -/
def packP (op : BitVec 8) (a b : Reg) : CmdWord := packWord op 0 (fieldOfReg a) (fieldOfReg b) 0

/-- The word of a format G command (R52). -/
def packG (op : BitVec 8) (a : Reg) : CmdWord := packWord op 0 (fieldOfReg a) 0 0

/-- The encoder: the word of a command (R52, R54, R64). -/
def encode : Instr → CmdWord
  | .new d => packD 0x10#8 d
  | .tryNew d => packD 0x11#8 d
  | .tNew d => packD 0x12#8 d
  | .rawNew d => packD 0x13#8 d
  | .ldMin d => packD 0x14#8 d
  | .ldMax d => packD 0x15#8 d
  | .copy d a => packU 0x16#8 d a
  | .mask d a => packU 0x17#8 d a
  | .add d a b => packR 0x20#8 d a b
  | .sub d a b => packR 0x21#8 d a b
  | .wadd d a b => packR 0x22#8 d a b
  | .wsub d a b => packR 0x23#8 d a b
  | .and d a b => packR 0x30#8 d a b
  | .or d a b => packR 0x31#8 d a b
  | .xor d a b => packR 0x32#8 d a b
  | .not d a => packU 0x33#8 d a
  | .shl d a k => packS 0x40#8 d a k
  | .shr d a k => packS 0x41#8 d a k
  | .cmp a b => packP 0x50#8 a b
  | .get a => packG 0x60#8 a

/-- A word carries an opcode in a format: the opcode stands in its field, and every field the format does not use is
zero (R51, R52). -/
def carries (op : BitVec 8) (f : Format) (w : CmdWord) : Prop :=
  opField w = op ∧ ∀ g ∈ f.zeroFields, fieldIsZero w g = true

/-- A row of the opcode map: `pattern` is the word with every operand field zero, `care` has a 1 at every bit that
must equal it (R54's `match` and `mask`). -/
structure OpRow where
  mnemonic : String
  pattern : CmdWord
  care : CmdWord
deriving DecidableEq, Repr

/-- A word encodes the command of a row exactly when it agrees with the pattern on the bits that matter (R54). -/
def OpRow.matchesWord (r : OpRow) (w : CmdWord) : Prop := w &&& r.care = r.pattern

/-- The opcode map, families 1 (R54). -/
def constructionRows : List OpRow :=
  [⟨"NEW", 0x10000000#32, 0xFF0FFFFF#32⟩,
   ⟨"TRYNEW", 0x11000000#32, 0xFF0FFFFF#32⟩,
   ⟨"TNEW", 0x12000000#32, 0xFF0FFFFF#32⟩,
   ⟨"RAWNEW", 0x13000000#32, 0xFF0FFFFF#32⟩,
   ⟨"LDMIN", 0x14000000#32, 0xFF0FFFFF#32⟩,
   ⟨"LDMAX", 0x15000000#32, 0xFF0FFFFF#32⟩,
   ⟨"COPY", 0x16000000#32, 0xFF00FFFF#32⟩,
   ⟨"MASK", 0x17000000#32, 0xFF00FFFF#32⟩]

/-- The opcode map, families 2 and 3 (R54). -/
def arithmeticRows : List OpRow :=
  [⟨"ADD", 0x20000000#32, 0xFF000FFF#32⟩,
   ⟨"SUB", 0x21000000#32, 0xFF000FFF#32⟩,
   ⟨"WADD", 0x22000000#32, 0xFF000FFF#32⟩,
   ⟨"WSUB", 0x23000000#32, 0xFF000FFF#32⟩,
   ⟨"AND", 0x30000000#32, 0xFF000FFF#32⟩,
   ⟨"OR", 0x31000000#32, 0xFF000FFF#32⟩,
   ⟨"XOR", 0x32000000#32, 0xFF000FFF#32⟩,
   ⟨"NOT", 0x33000000#32, 0xFF00FFFF#32⟩]

/-- The opcode map, families 4, 5 and 6 (R54). -/
def remainingRows : List OpRow :=
  [⟨"SHL", 0x40000000#32, 0xFF00FF00#32⟩,
   ⟨"SHR", 0x41000000#32, 0xFF00FF00#32⟩,
   ⟨"CMP", 0x50000000#32, 0xFFF00FFF#32⟩,
   ⟨"GET", 0x60000000#32, 0xFFF0FFFF#32⟩]

/-- The opcode map: the 20 rows of R54. The decoder is written from the formats, not from this table. -/
def opTable : List OpRow := constructionRows ++ arithmeticRows ++ remainingRows

/-- Byte k of a word a host maps onto bytes: bits `8k+7 : 8k`, little-endian (R41). -/
def hostByte {n : Nat} (v : BitVec n) (k : Nat) : BitVec 8 := v.extractLsb' (8 * k) 8

/-- The command word of four bytes in the host's order, lowest address first (R41). -/
def cmdOfHostBytes (b0 b1 b2 b3 : BitVec 8) : CmdWord := b3 ++ b2 ++ b1 ++ b0

/-- The decoder on a host's bytes: the first four are the command word and the rest is handed back; fewer than four
are no command word. -/
def decodeBytes : List (BitVec 8) → Option (Except Illegal Instr × List (BitVec 8))
  | b0 :: b1 :: b2 :: b3 :: rest => some (decode (cmdOfHostBytes b0 b1 b2 b3), rest)
  | _ => none

/-- The command word of a table row's bits (the host's interface): bits from `nbits` up are zero. -/
def tableWord (nbits w : Nat) : CmdWord := BitVec.ofNat 32 (w % 2 ^ nbits)

/-- The instruction the decoder reads from a table row's bits, none where it refuses them. -/
def decodeTableWord (nbits w : Nat) : Option Instr :=
  match decode (tableWord nbits w) with
  | .ok i => some i
  | .error _ => none

end Sys2Proof
end

