-- ==== Sys2Proof/Machine/State.lean ====
section
/-! DEFINITION. The state of one unit, the outcomes' reason types and the state after reset (10_state.md,
70_reset_and_hazards.md R160). The unit has no memory and no program counter (R22, R40). The host drives the input
ports (R31): the state holds what the ports carried at the last rising clock edge and what they will carry at the
edges to come, so that a step is a function of the state alone. -/

namespace Sys2Proof.Machine

/-- The cause codes that occur (R142); codes 5 to 15 are never written (93_implementation_defined.md U8). -/
inductive Cause where
  /-- 0: no fatal fault since reset. -/
  | none
  /-- 1 `RANGE`: raised by `NEW` (R143). -/
  | range
  /-- 2 `OVERFLOW`: raised by `ADD` and `SUB` in a unit with CHK = 1 (R144). -/
  | overflow
  /-- 3 `SHIFT`: raised by `SHL` and `SHR` (R145). -/
  | shift
  /-- 4 `ILLEGAL`: raised by a word that is no command (R146). -/
  | illegal
deriving DecidableEq, Repr

/-- The fields of `STATUS` (R27). The 16-bit word on the port is `Status.word`, whose reserved bits read as 0; the
host never writes it. -/
structure Status where
  /-- Bit 0: the last `CMP` found equality. -/
  eq : Bool
  /-- Bit 1: the last `CMP` found less. -/
  lt : Bool
  /-- Bit 2: the last `CMP` found greater. -/
  gt : Bool
  /-- Bit 3: the last `TRYNEW` was given an out-of-range operand. -/
  rerr : Bool
  /-- Bit 4: a fatal fault has happened since reset. -/
  halt : Bool
  /-- Bits 11:8: the cause of that fault. -/
  cause : Cause
deriving DecidableEq, Repr

/-- `STATUS` after reset, the word 0x0000 (R27, R160). -/
def Status.reset : Status := ⟨false, false, false, false, false, .none⟩

/-- What the outside world supplies at one rising edge of `clk`: the input ports (R31), and the words the value
registers come up with if the edge is a reset edge, which are no port but the free input of R161. -/
structure Edge (w : Nat) where
  /-- Port `rst`. -/
  rst : Bool
  /-- Port `cmd_valid`. -/
  cmdValid : Bool
  /-- Port `cmd`. -/
  cmd : CmdWord
  /-- Port `din`. -/
  din : BitVec w
  /-- The unspecified contents of `x0` .. `x15` after a reset at this edge (R160, R161); no other edge uses them. -/
  fresh : Vector (BitVec w) 16
deriving DecidableEq, Repr

/-- The state of one unit. The first five fields are the architectural state of 10_state.md section 1 (`cfg` stands
for the constant `CFG`, whose word is `cfgWord`); the other four are the model's own: whether the unit has been
reset at all (R162), the ports at the last edge, and the edges the host has yet to drive. -/
structure State where
  /-- The parameters of the unit, constant (R4 to R7, R28). -/
  cfg : Config
  /-- The value registers `x0` .. `x15`, raw storage words (R20, R21). -/
  x : Vector (Word cfg) 16
  /-- `STATUS` (R27). -/
  status : Status
  /-- `FCMD` (R29). -/
  fcmd : BitVec 32
  /-- `DOUT` (R30). -/
  dout : Word cfg
  /-- The unit has been reset at least once since power-up (R162). The model's own field. -/
  everReset : Bool
  /-- Port `cmd` at the last rising edge (R31). The model's own field. -/
  cmd : CmdWord
  /-- Port `din` at the last rising edge (R31, R32). The model's own field. -/
  din : Word cfg
  /-- The input ports at the rising edges to come, in order; after them the host presents nothing. The model's own
  field. -/
  coming : List (Edge cfg.W.bits)
deriving DecidableEq, Repr

/-- The reasons a step stops with a fault. There are none: a fatal fault of the unit is a next state (R141), and a
halted unit goes on, accepting nothing (R147). -/
inductive Fault where
deriving DecidableEq, Repr

/-- The reasons a step is refused. -/
inductive Refusal where
  /-- An instruction that has no meaning yet. Raised by no arm: every command is modelled. Safe. -/
  | notModelled (mnemonic : String)
  /-- A rising edge without `rst` before the first reset since power-up. Raised by `step` only. The spec gives no
  rule for it (R162, 93_implementation_defined.md U6: treatment `refuse`). Safe: no claim is made about such a run. -/
  | beforeFirstReset
deriving DecidableEq, Repr

/-- The state right after a reset of a unit whose value registers come up with the words `x` (R160): `STATUS`,
`FCMD` and `DOUT` are zero and the value registers are any words at all. The ports are quiet and the host presents
nothing (the model's own fields, notes/assumptions/3.md). -/
def State.resetOf (c : Config) (x : Vector (Word c) 16) : State :=
  { cfg := c, x := x, status := Status.reset, fcmd := 0, dout := 0,
    everReset := true, cmd := 0, din := 0, coming := [] }

/-- The word every value register of `State.reset` holds. DESIGN CHOICE (notes/assumptions/2.md): the spec leaves
these words unspecified and forbids assuming zero (R161), so the choice is neither zero nor canonical in `u5`. -/
def resetRegisterWord (c : Config) : Word c := BitVec.ofNat c.W.bits 0xA5

/-- The machine right after reset. Its instantiation (notes/assumptions/1.md) and its register contents
(notes/assumptions/2.md) are the model's choice; everything else is R160. -/
def State.reset : State :=
  State.resetOf Config.default (Vector.replicate 16 (resetRegisterWord Config.default))

end Sys2Proof.Machine
end

