-- ==== Sys2Proof/Machine/Operands.lean ====
section
/-! DEFINITION. Reading a storage word: the derived constants (R9), the masking function (R80, R81), the notation
`nat`, `value`, `enc`, `wrap` (00_scope.md section 5), the range test (R69) and the word shifts (R109). Nothing here
reads the state; every function takes the unit's parameters. -/

namespace Sys2Proof.Machine

/-- MIN: 0 for the unsigned unit, `−2^(N−1)` for the signed unit (R9). -/
def minInt (c : Config) : Int := if c.signed then -((2 ^ (c.N - 1) : Nat) : Int) else 0

/-- MAX: `2^N − 1` for the unsigned unit, `2^(N−1) − 1` for the signed unit (R9). -/
def maxInt (c : Config) : Int :=
  if c.signed then ((2 ^ (c.N - 1) : Nat) : Int) - 1 else ((2 ^ c.N : Nat) : Int) - 1

/-- LOWMASK (R81): the identity ONE (R10) shifted left by N, allowed to overflow to zero at `N = W`, less ONE modulo
`2^W`. -/
def lowMask (c : Config) : Word c := (BitVec.ofNat c.W.bits 1 <<< c.N) - BitVec.ofNat c.W.bits 1

/-- Bit N−1 of a storage word, the sign bit of a signed unit's narrow value (R24). -/
def signBit (c : Config) (s : Word c) : Bool := s.getLsbD (c.N - 1)

/-- The masking function: the canonical form of a storage word (R80). -/
def mask (c : Config) (s : Word c) : Word c :=
  if c.signed && signBit c s then s ||| ~~~(lowMask c) else s &&& lowMask c

/-- A storage word is canonical when masking leaves it as it is (R24); a word that is not canonical is dirty. -/
def isCanonical (c : Config) (s : Word c) : Bool := mask c s == s

/-- `nat(s)`: the native integer of a storage word, two's complement in the signed unit (00_scope.md section 5). -/
def nat (c : Config) (s : Word c) : Int := if c.signed then s.toInt else (s.toNat : Int)

/-- `value(s)`: the narrow value a storage word stands for (00_scope.md section 5). -/
def value (c : Config) (s : Word c) : Int := nat c (mask c s)

/-- `enc(z)`: the low W bits of an integer in two's complement (00_scope.md section 5). -/
def enc (c : Config) (z : Int) : Word c := BitVec.ofInt c.W.bits z

/-- `wrap(z)`: the integer in `[MIN, MAX]` congruent to z modulo `2^N` (00_scope.md section 5). -/
def wrap (c : Config) (z : Int) : Int :=
  if c.signed then Int.bmod z (2 ^ c.N) else z % ((2 ^ c.N : Nat) : Int)

/-- An exact integer lies in the narrow range (R9, R95). -/
def fitsNarrow (c : Config) (z : Int) : Bool := decide (minInt c ≤ z) && decide (z ≤ maxInt c)

/-- The range test on a native operand (R69). -/
def inRange (c : Config) (d : Word c) : Bool := fitsNarrow c (nat c d)

/-- Two storage words are equal as values when they stand for the same integer (R122). -/
def equalAsValues (c : Config) (s t : Word c) : Prop := value c s = value c t

/-- `s << k` for `k < W`: zeros enter at the bottom (R109). -/
def shiftLeftWord (c : Config) (s : Word c) (k : Nat) : Word c := s <<< k

/-- `s >> k` for `k < W`, the storage type's own right shift: logical in the unsigned unit, arithmetic in the signed
unit (R109; general knowledge G1 of the spec, decision D24). -/
def shiftRightWord (c : Config) (s : Word c) (k : Nat) : Word c := if c.signed then s.sshiftRight k else s >>> k

/-- A shift amount the storage type does not define: W or more (R112). -/
def shiftOutOfRange (c : Config) (k : Imm8) : Bool := decide (c.W.bits ≤ k.toNat)

/-- The wrapping sum of two storage words at the narrow width: masked operands, addition modulo `2^W`, masked result
(R92). -/
def wrappingAdd (c : Config) (s t : Word c) : Word c := mask c (mask c s + mask c t)

/-- The wrapping difference of two storage words at the narrow width (R93). -/
def wrappingSub (c : Config) (s t : Word c) : Word c := mask c (mask c s - mask c t)

end Sys2Proof.Machine
end

