-- ==== Sys2Proof/Machine/Flags.lean ====
section
/-! DEFINITION. The words on the status ports, and every flag computation: the comparison flags (R120), their
reading as software's comparison operators (R121), the recoverable flag (R71) and the overflow decision (R95). -/

namespace Sys2Proof.Machine

/-- The code of a cause (R142). -/
def Cause.code : Cause → BitVec 4
  | .none => 0
  | .range => 1
  | .overflow => 2
  | .shift => 3
  | .illegal => 4

/-- The `STATUS` word on the port (R27): bits 15:12 and 7:5 read as 0. -/
def Status.word (f : Status) : BitVec 16 :=
  0#4 ++ f.cause.code ++ 0#3 ++ BitVec.ofBool f.halt ++ BitVec.ofBool f.rerr ++ BitVec.ofBool f.gt
    ++ BitVec.ofBool f.lt ++ BitVec.ofBool f.eq

/-- The code of a storage width in `CFG` (R28). -/
def widthCode : Width → BitVec 3
  | .w8 => 0
  | .w16 => 1
  | .w32 => 2
  | .w64 => 3
  | .w128 => 4

/-- The `CFG` word of an instantiation (R28): bits 15:13 read as 0. -/
def cfgWord (c : Config) : BitVec 16 :=
  0#3 ++ BitVec.ofBool c.chk ++ BitVec.ofBool c.signed ++ widthCode c.W ++ BitVec.ofNat 8 c.N

/-- The three comparison flags of two storage words: the order of their narrow values (R120). -/
def Status.compare (f : Status) (c : Config) (s t : Word c) : Status :=
  { f with eq := decide (value c s = value c t), lt := decide (value c s < value c t),
           gt := decide (value c t < value c s) }

/-- `RERR` written by a `TRYNEW` (R71). -/
def Status.withRerr (f : Status) (b : Bool) : Status := { f with rerr := b }

/-- `HALT` and `CAUSE` written by a fatal fault (R141). -/
def Status.withFatal (f : Status) (C : Cause) : Status := { f with halt := true, cause := C }

/-- `ADD` or `SUB` with exact result r is a fatal fault: the unit checks, and r is outside the narrow range (R90,
R91, R95). -/
def overflows (c : Config) (r : Int) : Bool := c.chk && !fitsNarrow c r

/-- The comparison operators of software (R121). -/
inductive CmpOp where
  | eq
  | ne
  | lt
  | le
  | gt
  | ge
deriving DecidableEq, Repr

/-- How software reads a comparison operator from the flags after one `CMP` (R121). -/
def Status.holds (f : Status) : CmpOp → Bool
  | .eq => f.eq
  | .ne => !f.eq
  | .lt => f.lt
  | .le => !f.gt
  | .gt => f.gt
  | .ge => !f.lt

/-- What a comparison operator means on integers. -/
def CmpOp.holdsOn (a b : Int) : CmpOp → Prop
  | .eq => a = b
  | .ne => a ≠ b
  | .lt => a < b
  | .le => a ≤ b
  | .gt => b < a
  | .ge => b ≤ a

/-- The three-way ordering result that software reads after one `CMP` (R121); none before the first `CMP`. -/
def Status.ordering (f : Status) : Option Ordering :=
  if f.lt then some .lt else if f.eq then some .eq else if f.gt then some .gt else none

end Sys2Proof.Machine
end

