-- ==== Sys2Proof/Machine/Ops.lean ====
section
/-! DEFINITION. The named operations on the state: the register file (R20, R42), the other registers, the fatal
fault as one shared operation (R141) with its only way out, reset (R149, R160), and the sampling of the input ports
at a rising edge (R31). -/

namespace Sys2Proof.Machine

/-- The outcome of a step or of a command. -/
abbrev Result := Host.Outcome State Fault Refusal

/-- `x[i]`: the raw storage word of a value register, not masked (R20). -/
def State.readReg (s : State) (r : Reg) : Word s.cfg := s.x.get r

/-- `x[i]` read through the masking function, as every command but `COPY` reads it (R25). -/
def State.readMasked (s : State) (r : Reg) : Word s.cfg := mask s.cfg (s.readReg r)

/-- The narrow value of a register. -/
def State.valueOf (s : State) (r : Reg) : Int := value s.cfg (s.readReg r)

/-- `x[i] <- v`: a whole W-bit register is written (R42); no register is hardwired (R20). -/
def State.writeReg (s : State) (r : Reg) (v : Word s.cfg) : State := { s with x := s.x.set r.val v }

/-- `DOUT <- v` (R30). -/
def State.writeDout (s : State) (v : Word s.cfg) : State := { s with dout := v }

/-- `STATUS` written (R27). -/
def State.writeStatus (s : State) (f : Status) : State := { s with status := f }

/-- The three writes of a fatal fault: `HALT <- 1`, `CAUSE <- C`, `FCMD <- cmd`, and nothing else (R141). -/
def State.takeFatal (s : State) (C : Cause) : State :=
  { s with status := s.status.withFatal C, fcmd := s.cmd }

/-- `raise Fatal(C)`: the unit takes the fault and is halted in the next state (R141, R147). -/
def raiseFatal (C : Cause) (s : State) : Result := .next (s.takeFatal C)

/-- A command that completes by writing one register. -/
def completeWith (r : Reg) (s : State) (v : Word s.cfg) : Result := .next (s.writeReg r v)

/-- The reset of a unit whose value registers come up with the words `fresh` (R160): the way into the running state
and the only return from a fatal fault (R149). The parameters, the ports and the edges to come stay. -/
def State.resetUnit (s : State) (fresh : Vector (Word s.cfg) 16) : State :=
  { s with x := fresh, status := Status.reset, fcmd := 0, dout := 0, everReset := true }

/-- The ports at a rising edge are sampled: `cmd` and `din` are what the edge carries, and the edges after it remain
(R31). -/
def State.sample (s : State) (e : Edge s.cfg.W.bits) (rest : List (Edge s.cfg.W.bits)) : State :=
  { s with cmd := e.cmd, din := e.din, coming := rest }

/-- Output port `halted` (R31, R150). -/
def State.halted (s : State) : Bool := s.status.halt

/-- Output port `cmd_ready` while `rst` has the given value (R31, R160). -/
def State.cmdReady (s : State) (rst : Bool) : Bool := !rst && !s.halted

/-- A command is accepted at an edge: `rst = 0`, `cmd_valid = 1` and `cmd_ready = 1` (R31). -/
def State.accepts (s : State) (e : Edge s.cfg.W.bits) : Bool := !e.rst && e.cmdValid && s.cmdReady e.rst

/-- Output port `status` (R31). -/
def State.statusPort (s : State) : BitVec 16 := s.status.word

/-- Output port `cfg` (R31). -/
def State.cfgPort (s : State) : BitVec 16 := cfgWord s.cfg

/-- The edge that presents a command: no reset, `cmd_valid = 1` (R31). -/
def State.commandEdge (s : State) (w : CmdWord) (d : Word s.cfg) : Edge s.cfg.W.bits :=
  { rst := false, cmdValid := true, cmd := w, din := d, fresh := s.x }

/-- The state in which the host presents a command at the next edge, before whatever it presents afterwards. -/
def State.presenting (s : State) (w : CmdWord) (d : Word s.cfg) : State :=
  { s with coming := s.commandEdge w d :: s.coming }

end Sys2Proof.Machine
end

