-- ==== Sys2Proof/Machine/Arithmetic.lean ====
section
/-! DEFINITION. Add and subtract (42_arithmetic.md), at the narrow width (R94). The overflow decision of `ADD` and
`SUB` is made on the exact integers of the masked operands (90_conflicts.md C4, decision D37). -/

namespace Sys2Proof.Machine

/-- `WADD xd, xa, xb` (R92). -/
def execWadd (rd rs1 rs2 : Reg) (s : State) : Result :=
  completeWith rd s (wrappingAdd s.cfg (s.readReg rs1) (s.readReg rs2))

/-- `WSUB xd, xa, xb` (R93). -/
def execWsub (rd rs1 rs2 : Reg) (s : State) : Result :=
  completeWith rd s (wrappingSub s.cfg (s.readReg rs1) (s.readReg rs2))

/-- `ADD xd, xa, xb` (R90). -/
def execAdd (rd rs1 rs2 : Reg) (s : State) : Result :=
  if overflows s.cfg (s.valueOf rs1 + s.valueOf rs2) then raiseFatal .overflow s
  else completeWith rd s (wrappingAdd s.cfg (s.readReg rs1) (s.readReg rs2))

/-- `SUB xd, xa, xb` (R91). -/
def execSub (rd rs1 rs2 : Reg) (s : State) : Result :=
  if overflows s.cfg (s.valueOf rs1 - s.valueOf rs2) then raiseFatal .overflow s
  else completeWith rd s (wrappingSub s.cfg (s.readReg rs1) (s.readReg rs2))

end Sys2Proof.Machine
end

