-- ==== Sys2Proof/Machine/Bitwise.lean ====
section
/-! DEFINITION. The bitwise commands (43_bitwise.md): masked operands, the storage type's operator (R100). -/

namespace Sys2Proof.Machine

/-- `AND xd, xa, xb` (R101). -/
def execAnd (rd rs1 rs2 : Reg) (s : State) : Result := completeWith rd s (s.readMasked rs1 &&& s.readMasked rs2)

/-- `OR xd, xa, xb` (R102). -/
def execOr (rd rs1 rs2 : Reg) (s : State) : Result := completeWith rd s (s.readMasked rs1 ||| s.readMasked rs2)

/-- `XOR xd, xa, xb` (R103). -/
def execXor (rd rs1 rs2 : Reg) (s : State) : Result := completeWith rd s (s.readMasked rs1 ^^^ s.readMasked rs2)

/-- `NOT xd, xa` (R104): the complement is masked again. -/
def execNot (rd rs1 : Reg) (s : State) : Result := completeWith rd s (mask s.cfg (~~~(s.readMasked rs1)))

end Sys2Proof.Machine
end

