-- ==== Sys2Proof/Machine/Compare.lean ====
section
/-! DEFINITION. Comparison (45_compare.md) and extraction (46_conversion.md). Neither writes a value register. -/

namespace Sys2Proof.Machine

/-- `CMP xa, xb` (R120): the three comparison flags. -/
def execCmp (rs1 rs2 : Reg) (s : State) : Result :=
  .next (s.writeStatus (s.status.compare s.cfg (s.readReg rs1) (s.readReg rs2)))

/-- `GET xa` (R130): `DOUT` is the masked register. -/
def execGet (rs1 : Reg) (s : State) : Result := .next (s.writeDout (s.readMasked rs1))

end Sys2Proof.Machine
end

