-- ==== Sys2Proof/Machine/Construction.lean ====
section
/-! DEFINITION. The construction commands (40_construction.md) and `MASK` (41_masking.md). The construction commands
take their operand from the `din` port (R32). -/

namespace Sys2Proof.Machine

/-- `NEW xd` (R70): an in-range operand is written unchanged, any other raises `RANGE`. -/
def execNew (rd : Reg) (s : State) : Result :=
  if inRange s.cfg s.din then completeWith rd s s.din else raiseFatal .range s

/-- `TRYNEW xd` (R71): as `NEW`, with `RERR` for the answer; an out-of-range operand writes no register. -/
def execTryNew (rd : Reg) (s : State) : Result :=
  if inRange s.cfg s.din then .next ((s.writeReg rd s.din).writeStatus (s.status.withRerr false))
  else .next (s.writeStatus (s.status.withRerr true))

/-- `TNEW xd` (R72): the operand is masked. -/
def execTNew (rd : Reg) (s : State) : Result := completeWith rd s (mask s.cfg s.din)

/-- `RAWNEW xd` (R73): the operand is stored verbatim. -/
def execRawNew (rd : Reg) (s : State) : Result := completeWith rd s s.din

/-- `LDMIN xd` (R74). -/
def execLdMin (rd : Reg) (s : State) : Result := completeWith rd s (enc s.cfg (minInt s.cfg))

/-- `LDMAX xd` (R75). -/
def execLdMax (rd : Reg) (s : State) : Result := completeWith rd s (enc s.cfg (maxInt s.cfg))

/-- `COPY xd, xa` (R76): all W bits verbatim, the one read that does not mask. -/
def execCopy (rd rs1 : Reg) (s : State) : Result := completeWith rd s (s.readReg rs1)

/-- `MASK xd, xa` (R82). -/
def execMask (rd rs1 : Reg) (s : State) : Result := completeWith rd s (s.readMasked rs1)

end Sys2Proof.Machine
end

