-- ==== Sys2Proof/Machine/Shift.lean ====
section
/-! DEFINITION. The shift commands (44_shift.md): the operand is masked before the shift (R113) and the result after
it; an amount of W or more raises `SHIFT` and never has a value (R112). -/

namespace Sys2Proof.Machine

/-- `SHL xd, xa, k` (R110). -/
def execShl (rd rs1 : Reg) (imm8 : Imm8) (s : State) : Result :=
  if shiftOutOfRange s.cfg imm8 then raiseFatal .shift s
  else completeWith rd s (mask s.cfg (shiftLeftWord s.cfg (s.readMasked rs1) imm8.toNat))

/-- `SHR xd, xa, k` (R111). -/
def execShr (rd rs1 : Reg) (imm8 : Imm8) (s : State) : Result :=
  if shiftOutOfRange s.cfg imm8 then raiseFatal .shift s
  else completeWith rd s (mask s.cfg (shiftRightWord s.cfg (s.readMasked rs1) imm8.toNat))

end Sys2Proof.Machine
end

