-- ==== Sys2Proof/Machine/Dispatch.lean ====
section
/-! DEFINITION. The effect of an accepted command: one arm per command, each one call of its meaning. -/

namespace Sys2Proof.Machine

/-- What an accepted command does (R31: all of it at one edge). Whether a command is accepted is `step`'s matter. -/
def exec (i : Instr) (s : State) : Host.Outcome State Fault Refusal :=
  match i with
  | .new rd => Sys2Proof.Machine.execNew rd s
  | .tryNew rd => Sys2Proof.Machine.execTryNew rd s
  | .tNew rd => Sys2Proof.Machine.execTNew rd s
  | .rawNew rd => Sys2Proof.Machine.execRawNew rd s
  | .ldMin rd => Sys2Proof.Machine.execLdMin rd s
  | .ldMax rd => Sys2Proof.Machine.execLdMax rd s
  | .copy rd rs1 => Sys2Proof.Machine.execCopy rd rs1 s
  | .mask rd rs1 => Sys2Proof.Machine.execMask rd rs1 s
  | .add rd rs1 rs2 => Sys2Proof.Machine.execAdd rd rs1 rs2 s
  | .sub rd rs1 rs2 => Sys2Proof.Machine.execSub rd rs1 rs2 s
  | .wadd rd rs1 rs2 => Sys2Proof.Machine.execWadd rd rs1 rs2 s
  | .wsub rd rs1 rs2 => Sys2Proof.Machine.execWsub rd rs1 rs2 s
  | .and rd rs1 rs2 => Sys2Proof.Machine.execAnd rd rs1 rs2 s
  | .or rd rs1 rs2 => Sys2Proof.Machine.execOr rd rs1 rs2 s
  | .xor rd rs1 rs2 => Sys2Proof.Machine.execXor rd rs1 rs2 s
  | .not rd rs1 => Sys2Proof.Machine.execNot rd rs1 s
  | .shl rd rs1 imm8 => Sys2Proof.Machine.execShl rd rs1 imm8 s
  | .shr rd rs1 imm8 => Sys2Proof.Machine.execShr rd rs1 imm8 s
  | .cmp rs1 rs2 => Sys2Proof.Machine.execCmp rs1 rs2 s
  | .get rs1 => Sys2Proof.Machine.execGet rs1 s

end Sys2Proof.Machine
end

