-- ==== Sys2Proof/Machine/Clock.lean ====
section
/-! DEFINITION. What the unit does at one rising edge of `clk` (R31): reset, an accepted command, or nothing. -/

namespace Sys2Proof.Machine

/-- What the unit does with an accepted command word (R63): an illegal word raises `ILLEGAL` (R60, R146), any other
executes its own rule. -/
def acceptWord (w : CmdWord) (s : State) : Result :=
  match Sys2Proof.decode w with
  | .ok i => exec i s
  | .error _ => raiseFatal .illegal s

/-- One edge whose ports carry `e`, with `rest` to come (R31, R160). A reset edge resets the unit, whatever else is
presented. Before the first reset no other edge has a meaning (R162). An edge at which no command is accepted, by an
idle host or a halted unit, changes nothing but what the ports carry (R31, R147). -/
def stepEdge (s : State) (e : Edge s.cfg.W.bits) (rest : List (Edge s.cfg.W.bits)) : Result :=
  if e.rst then .next ((s.sample e rest).resetUnit e.fresh)
  else if !s.everReset then .refused .beforeFirstReset
  else if s.accepts e then acceptWord e.cmd (s.sample e rest)
  else .next (s.sample e rest)

/-- An edge at which the host presents nothing: it changes nothing (R31, R169), and before the first reset it has no
meaning (R162). -/
def quietEdge (s : State) : Result := if s.everReset then .next s else .refused .beforeFirstReset

end Sys2Proof.Machine
end

