-- ==== Sys2Proof/Machine/Step.lean ====
section
/-! DEFINITION. One step: one rising edge of `clk` (R31), and the state in which the next step runs a given word. -/

namespace Sys2Proof.Machine

/-- One step: the next edge the host drives, or a quiet edge when it presents nothing more (R31, R169). -/
def step (s : State) : Host.Outcome State Fault Refusal :=
  match s.coming with
  | [] => quietEdge s
  | e :: rest => stepEdge s e rest

/-- The state in which the next step runs a table row's instruction (the host's interface): the command is presented
at the next edge, with `din` as the port last carried it. A program is a sequence of commands the host presents; none
is loaded (notes/assumptions/5.md). -/
def State.withFetchWord (s : State) (nbits w : Nat) : State := s.presenting (Sys2Proof.tableWord nbits w) s.din

end Sys2Proof.Machine
end

