-- ==== Sys2Proof/Machine/HostContract.lean ====
section
/-! DEFINITION. The host's side of the conversions (46_conversion.md section 2): what it presents on `din` for a
value of a native type, and the answer it reads. -/

namespace Sys2Proof.Machine

/-- The `din` of an unsigned native value of at most W bits: zero extension (R131). -/
def dinOfUnsigned (c : Config) {w : Nat} (v : BitVec w) : Word c := v.setWidth c.W.bits

/-- The `din` of a signed native value of at most W bits: sign extension (R131). -/
def dinOfSigned (c : Config) {w : Nat} (v : BitVec w) : Word c := v.signExtend c.W.bits

/-- What the host makes of `dout` at a wider native type: zero extension in the unsigned unit, sign extension in the
signed unit (R130). -/
def widened (c : Config) (d : Word c) (w : Nat) : BitVec w := if c.signed then d.signExtend w else d.setWidth w

/-- The native integer of a word of any width, read as the unit's kind reads it. -/
def natOfWidth (c : Config) {w : Nat} (d : BitVec w) : Int := if c.signed then d.toInt else (d.toNat : Int)

/-- The least integer of the storage type S (R32). -/
def storageMin (c : Config) : Int := if c.signed then -((2 ^ (c.W.bits - 1) : Nat) : Int) else 0

/-- The greatest integer of the storage type S (R32). -/
def storageMax (c : Config) : Int :=
  if c.signed then ((2 ^ (c.W.bits - 1) : Nat) : Int) - 1 else ((2 ^ c.W.bits : Nat) : Int) - 1

/-- An integer is representable in the storage type S, a test the host makes at the source type's width (R133). -/
def representable (c : Config) (z : Int) : Bool := decide (storageMin c ≤ z) && decide (z ≤ storageMax c)

/-- A fallible narrowing conversion of an integer into register `rd` (R132, R133): an integer not representable in S
is the overflow error without consulting the unit; any other is presented to `TRYNEW`, and `RERR` is the answer.
The error (R132) carries no payload: `none`. -/
def narrowInto (rd : Reg) (z : Int) (s : State) : Option State :=
  if representable s.cfg z then
    match execTryNew rd { s with din := enc s.cfg z } with
    | .next t => if t.status.rerr then none else some t
    | .fault _ => none
    | .refused _ => none
  else none

end Sys2Proof.Machine
end

