-- ==== Sys2Proof/Safety.lean ====
section
/-! DEFINITION. What counts as a safe run, in the terms the statements use: a run that went well (R169), the table of
fatal faults as a condition on the command and the state (R142), the invariant of a reset unit, and the duty to
construct a register before reading it (R163). -/

namespace Sys2Proof.Machine

/-- A run that has ended well (R169): the host has presented all it had to, and the unit is not halted. A halted unit
is never a good end (R147). -/
def State.runWentWell (s : State) : Prop := s.coming = [] ∧ s.status.halt = false

/-- The fatal fault a command raises in a state, by the table of R142: the condition is on the exact integers and the
amount alone; none for every command that never faults. -/
def fatalCause (i : Instr) (s : State) : Option Cause :=
  match i with
  | .new _ => if minInt s.cfg ≤ nat s.cfg s.din ∧ nat s.cfg s.din ≤ maxInt s.cfg then none else some .range
  | .add _ a b =>
    if s.cfg.chk = true ∧ (s.valueOf a + s.valueOf b < minInt s.cfg ∨ maxInt s.cfg < s.valueOf a + s.valueOf b)
    then some .overflow else none
  | .sub _ a b =>
    if s.cfg.chk = true ∧ (s.valueOf a - s.valueOf b < minInt s.cfg ∨ maxInt s.cfg < s.valueOf a - s.valueOf b)
    then some .overflow else none
  | .shl _ _ k => if s.cfg.W.bits ≤ k.toNat then some .shift else none
  | .shr _ _ k => if s.cfg.W.bits ≤ k.toNat then some .shift else none
  | .tryNew _ | .tNew _ | .rawNew _ | .ldMin _ | .ldMax _ | .copy _ _ | .mask _ _ => none
  | .wadd _ _ _ | .wsub _ _ _ | .and _ _ _ | .or _ _ _ | .xor _ _ _ | .not _ _ | .cmp _ _ | .get _ => none

/-- What the fault record of a halted unit says (R142, R148): a cause other than none, and in `FCMD` a word that can
raise it in this unit. -/
def faultRecordIsGenuine (c : Config) (w : CmdWord) : Cause → Prop
  | .none => False
  | .range => c.N < c.W.bits ∧ ∃ d, decode w = .ok (.new d)
  | .overflow => c.chk = true ∧ ∃ d a b, decode w = .ok (.add d a b) ∨ decode w = .ok (.sub d a b)
  | .shift => ∃ d a k, (decode w = .ok (.shl d a k) ∨ decode w = .ok (.shr d a k)) ∧ c.W.bits ≤ k.toNat
  | .illegal => ∀ i, decode w ≠ .ok i

/-- The invariant of a unit that has been reset: `DOUT` is canonical (R30), at most one comparison flag is set (R27),
a running unit has no fault record and a halted one has a genuine record (R27, R29, R142). -/
structure State.Inv (s : State) : Prop where
  /-- `DOUT` always holds a canonical word (R30). -/
  doutCanonical : mask s.cfg s.dout = s.dout
  /-- At most one of `EQ`, `LT`, `GT` is 1 (R27, R120). -/
  flagsExclusive : ¬(s.status.eq = true ∧ s.status.lt = true) ∧ ¬(s.status.eq = true ∧ s.status.gt = true) ∧
    ¬(s.status.lt = true ∧ s.status.gt = true)
  /-- `CAUSE` is 0 and `FCMD` is 0 while `HALT = 0` (R27, R29). -/
  runningRecordEmpty : s.status.halt = false → s.status.cause = .none ∧ s.fcmd = 0
  /-- `CAUSE` and `FCMD` of a halted unit describe a fault this unit can have (R142, R148). -/
  haltedRecordGenuine : s.status.halt = true → faultRecordIsGenuine s.cfg s.fcmd s.status.cause

/-- Every value register holds a canonical word (R24). -/
def State.allCanonical (s : State) : Prop := ∀ r, mask s.cfg (s.readReg r) = s.readReg r

/-- Two register files agree as values: register by register the words are equal as values (R122). -/
def sameValues (c : Config) (x y : Vector (Word c) 16) : Prop := ∀ r : Reg, equalAsValues c (x.get r) (y.get r)

/-- The host's duty of R163 and R167, checked on the edges it drives, with `known` the registers constructed so far:
no reset, no command reads a register that nothing has constructed, and a `TRYNEW` constructs only when it succeeds.
A word that is no command halts the unit, so what follows it is free. -/
def constructsBeforeReading (c : Config) (known : List Reg) : List (Edge c.W.bits) → Bool
  | [] => true
  | e :: rest =>
    if e.rst then false
    else if !e.cmdValid then constructsBeforeReading c known rest
    else
      match decode e.cmd with
      | .error _ => true
      | .ok i =>
        i.reads.all (fun r => known.contains r) &&
          constructsBeforeReading c
            (match i with
              | .tryNew d => if inRange c e.din then d :: known else known
              | _ => i.dest.toList ++ known) rest

end Sys2Proof.Machine
end

