-- ==== Sys2Proof/Certificates/Slice0/Obligations.lean ====
section
/-! DEFINITION. The statements for the provers. Each says which rule of spec/ it formalises; they hold for every legal
instantiation (N, W, SIGNED, CHK), since a state carries its own. `s.writeReg`, `s.takeFatal` and `s.writeDout` are
described by `RegisterWriteChangesOneRegister` and `FatalFaultMakesThreeWrites`; `carries` is a rule's encoding line. -/

open Sys2Proof Sys2Proof.Machine

-- Encoding

/-- R60: every command's word decodes to that command, with every operand at every value. -/
def Obligations.EncodedCommandsDecodeBack : Prop :=
  ∀ i : Instr, decode (encode i) = .ok i

/-- R51, R60: a word that decodes to a command is that command's word and no other, so no bit is ignored. -/
def Obligations.DecodedWordsEncodeBack : Prop :=
  ∀ (w : CmdWord) (i : Instr), decode w = .ok i → encode i = w

/-- R54: a word encodes the command of a row exactly when it agrees with the row's pattern on the bits that matter,
and the rows are pairwise disjoint. -/
def Obligations.DecoderAcceptsExactlyTheTableWords : Prop :=
  (∀ (w : CmdWord) (m : String),
    (∃ i, decode w = .ok i ∧ i.mnemonic = m) ↔ (∃ r ∈ opTable, r.mnemonic = m ∧ r.matchesWord w)) ∧
  (∀ (w : CmdWord) (r r' : OpRow), r ∈ opTable → r' ∈ opTable → r.matchesWord w → r'.matchesWord w → r = r')

/-- R64 and 95_test_vectors.md V8: words written out in the spec decode as it says. -/
def Obligations.WordsOfTheSpecDecodeAsListed : Prop :=
  decode 0x20312000#32 = .ok (.add 3 1 2) ∧ decode 0x40210003#32 = .ok (.shl 2 1 3) ∧
  decode 0x10100000#32 = .ok (.new 1) ∧ decode 0x50012000#32 = .ok (.cmp 1 2) ∧
  decode 0x600F0000#32 = .ok (.get 15) ∧ decode 0x17AB0000#32 = .ok (.mask 10 11) ∧
  decode 0x33530000#32 = .ok (.not 5 3) ∧ decode 0x402100FF#32 = .ok (.shl 2 1 255) ∧
  decode 0x00000000#32 = .error (.unknownOpcode 0) ∧ decode 0x10110000#32 = .error (.mustBeZero .rs1) ∧
  decode 0x10100100#32 = .error (.mustBeZero .z) ∧ decode 0x601F0000#32 = .error (.mustBeZero .rd)

/-- R41: a command word mapped onto bytes in the host's order, byte k being bits `8k+7 : 8k`, is read back whole,
whatever bytes follow it. -/
def Obligations.HostBytesCarryTheCommandWord : Prop :=
  ∀ (w : CmdWord) (rest : List (BitVec 8)),
    decodeBytes (hostByte w 0 :: hostByte w 1 :: hostByte w 2 :: hostByte w 3 :: rest) = some (decode w, rest)

-- Words, masking and values

/-- R9: MIN and MAX of an instantiation, and the bits of LOWMASK. -/
def Obligations.ConstantsOfAnInstantiation : Prop :=
  ∀ c : Config,
    (c.signed = false → minInt c = 0 ∧ maxInt c = 2 ^ c.N - 1) ∧
    (c.signed = true → minInt c = -(2 ^ (c.N - 1)) ∧ maxInt c = 2 ^ (c.N - 1) - 1) ∧
    (∀ i, i < c.W.bits → (lowMask c).getLsbD i = decide (i < c.N)) ∧
    (c.N = c.W.bits → lowMask c = BitVec.allOnes c.W.bits)

/-- R81: LOWMASK is `t − 1` modulo `2^W` for `t = 2^N mod 2^W`. Below the storage width `t` has bit N alone and LOWMASK
is `2^N − 1`; at it `t` is zero, LOWMASK is all ones and masking changes no word (the last is the spec's `[derived]`). -/
def Obligations.LowMaskIsRightAtFullWidth : Prop :=
  ∀ c : Config,
    lowMask c = BitVec.ofNat c.W.bits (2 ^ c.N) - 1 ∧
    (c.N < c.W.bits → ∀ i, i < c.W.bits → (BitVec.ofNat c.W.bits (2 ^ c.N)).getLsbD i = decide (i = c.N)) ∧
    (c.N = c.W.bits → BitVec.ofNat c.W.bits (2 ^ c.N) = 0) ∧
    (c.N < c.W.bits → (lowMask c).toNat = 2 ^ c.N - 1) ∧
    (c.N = c.W.bits → lowMask c = BitVec.allOnes c.W.bits ∧ ∀ s : Word c, mask c s = s)

/-- R80: masking by the storage-word formula, bit by bit, and as an extension of the low N bits. -/
def Obligations.MaskExtendsTheLowBits : Prop :=
  ∀ (c : Config) (s : Word c),
    (c.signed = false → mask c s = s &&& lowMask c ∧ mask c s = (s.extractLsb' 0 c.N).setWidth c.W.bits) ∧
    (c.signed = true → s.getLsbD (c.N - 1) = false → mask c s = s &&& lowMask c) ∧
    (c.signed = true → s.getLsbD (c.N - 1) = true → mask c s = s ||| ~~~(lowMask c)) ∧
    (c.signed = true → mask c s = (s.extractLsb' 0 c.N).signExtend c.W.bits) ∧
    (∀ i, i < c.N → (mask c s).getLsbD i = s.getLsbD i) ∧
    (∀ i, c.N ≤ i → i < c.W.bits → (mask c s).getLsbD i = (c.signed && s.getLsbD (c.N - 1)))

/-- R83: idempotence, fixed points, low bits, value, and the homomorphism for the bitwise operators. The spec marks
these laws `[derived]`. -/
def Obligations.MaskLaws : Prop :=
  ∀ (c : Config) (s t : Word c),
    mask c (mask c s) = mask c s ∧
    (mask c s = s ↔ minInt c ≤ nat c s ∧ nat c s ≤ maxInt c) ∧
    (mask c s).extractLsb' 0 c.N = s.extractLsb' 0 c.N ∧
    nat c (mask c s) = wrap c s.toNat ∧ nat c (mask c s) = wrap c (nat c s) ∧
    (∀ v, minInt c ≤ v → v ≤ maxInt c → mask c (enc c v) = enc c v) ∧
    mask c s &&& mask c t = mask c (s &&& t) ∧
    mask c s ||| mask c t = mask c (s ||| t) ∧
    mask c s ^^^ mask c t = mask c (s ^^^ t)

/-- R11: a masked word encodes the wrapped unsigned reading; the narrow value lies in the range, is congruent to the
unsigned reading, and is the reading of the low N bits alone. The spec marks the rule `[derived]`. -/
def Obligations.NarrowValueIsTheLowBits : Prop :=
  ∀ (c : Config) (s : Word c),
    mask c s = enc c (wrap c s.toNat) ∧
    minInt c ≤ value c s ∧ value c s ≤ maxInt c ∧
    value c s ≡ (s.toNat : Int) [ZMOD 2 ^ c.N] ∧
    (c.signed = false → value c s = (s.extractLsb' 0 c.N).toNat) ∧
    (c.signed = true → value c s = (s.extractLsb' 0 c.N).toInt)

/-- 00_scope.md section 5: `wrap(z)` is the one integer in the narrow range congruent to z. -/
def Obligations.WrapIsTheUniqueResidue : Prop :=
  ∀ (c : Config) (y z : Int),
    wrap c z = y ↔ minInt c ≤ y ∧ y ≤ maxInt c ∧ y ≡ z [ZMOD 2 ^ c.N]

/-- R69: three tests of being in range, and every word is in range at the full width. The spec marks the equivalents
`[derived]`. -/
def Obligations.RangeTestsAgree : Prop :=
  ∀ (c : Config) (d : Word c),
    (inRange c d = true ↔ minInt c ≤ nat c d ∧ nat c d ≤ maxInt c) ∧
    (inRange c d = true ↔ mask c d = d) ∧
    (c.signed = false → (inRange c d = true ↔ ∀ i, c.N ≤ i → i < c.W.bits → d.getLsbD i = false)) ∧
    (c.signed = true →
      (inRange c d = true ↔ ∀ i, c.N ≤ i → i < c.W.bits → d.getLsbD i = d.getLsbD (c.N - 1))) ∧
    (c.N = c.W.bits → inRange c d = true)

/-- R122, R124: equality as values is agreement of the low N bits and equality of the masked words, and `GET` delivers
the same word from registers that are equal as values. The spec marks R122 `[derived]`. -/
def Obligations.EqualAsValuesMeansEqualLowBits : Prop :=
  (∀ (c : Config) (s t : Word c),
    (equalAsValues c s t ↔ s.extractLsb' 0 c.N = t.extractLsb' 0 c.N) ∧
    (equalAsValues c s t ↔ mask c s = mask c t)) ∧
  (∀ (a b : Reg) (s : State), equalAsValues s.cfg (s.readReg a) (s.readReg b) → exec (.get a) s = exec (.get b) s)

/-- R109: the word shifts on integers, for amounts below W. What a right shift fills with is the spec's general
knowledge G1 (notes/assumptions/7.md). -/
def Obligations.WordShiftsOnIntegers : Prop :=
  ∀ (c : Config) (s : Word c) (k : Nat), k < c.W.bits →
    (shiftLeftWord c s k).toNat = (s.toNat * 2 ^ k) % 2 ^ c.W.bits ∧
    (c.signed = false → (shiftRightWord c s k).toNat = s.toNat / 2 ^ k) ∧
    (c.signed = true → shiftRightWord c s k = enc c (s.toInt / 2 ^ k))

/-- R95: how far an exact sum or difference can leave the range, which side each unit can leave it on, and what
wrapping does about it. The spec marks the rule `[derived]`. -/
def Obligations.ExactResultsWrapByOneModulus : Prop :=
  ∀ (c : Config) (s t : Word c) (r : Int), (r = value c s + value c t ∨ r = value c s - value c t) →
    minInt c - 2 ^ c.N < r ∧ r < maxInt c + 2 ^ c.N ∧
    (maxInt c < r → wrap c r = r - 2 ^ c.N) ∧
    (r < minInt c → wrap c r = r + 2 ^ c.N) ∧
    (minInt c ≤ r → r ≤ maxInt c → wrap c r = r) ∧
    (c.signed = false → r = value c s + value c t → minInt c ≤ r) ∧
    (c.signed = false → r = value c s - value c t → r ≤ maxInt c ∧ (r < minInt c ↔ value c s < value c t))

-- The registers and the fatal fault

/-- R20, R42: a register write changes the whole of one register and no other state; every register reads what was
written to it, none is hardwired. -/
def Obligations.RegisterWriteChangesOneRegister : Prop :=
  ∀ (s : State) (r : Reg) (v : Word s.cfg),
    (s.writeReg r v).readReg r = v ∧
    (∀ r', r' ≠ r → (s.writeReg r v).readReg r' = s.readReg r') ∧
    (∃ y, s.writeReg r v = { s with x := y })

/-- R141: a fatal fault writes HALT, CAUSE and FCMD and changes nothing else. -/
def Obligations.FatalFaultMakesThreeWrites : Prop :=
  ∀ (s : State) (C : Cause),
    s.takeFatal C = { s with status := { s.status with halt := true, cause := C }, fcmd := s.cmd }

/-- R142, R144, R145: a command raises the fault its table row names, exactly under the row's condition, and otherwise
leaves HALT, CAUSE and FCMD alone; a word that is no command raises ILLEGAL; and the causes have the codes listed. -/
def Obligations.FaultsAreExactlyThoseOfTheTable : Prop :=
  ∀ (i : Instr) (s : State),
    (∀ C, fatalCause i s = some C → exec i s = .next (s.takeFatal C)) ∧
    (fatalCause i s = none → ∃ t, exec i s = .next t ∧ t.status.halt = s.status.halt ∧
      t.status.cause = s.status.cause ∧ t.fcmd = s.fcmd) ∧
    (∀ w : CmdWord, (∀ j, decode w ≠ .ok j) → acceptWord w s = .next (s.takeFatal .illegal)) ∧
    Cause.none.code = 0 ∧ Cause.range.code = 1 ∧ Cause.overflow.code = 2 ∧ Cause.shift.code = 3 ∧ Cause.illegal.code = 4

-- Construction and masking commands

/-- R70: `NEW` writes an in-range operand unchanged and canonical, raises RANGE on any other, and never faults at the
full width. -/
def Obligations.NewWritesInRangeOrRaisesRange : Prop :=
  ∀ (rd : Reg) (s : State),
    carries 0x10#8 .D (encode (.new rd)) ∧
    (minInt s.cfg ≤ nat s.cfg s.din → nat s.cfg s.din ≤ maxInt s.cfg →
      exec (.new rd) s = .next (s.writeReg rd s.din) ∧ mask s.cfg s.din = s.din) ∧
    (nat s.cfg s.din < minInt s.cfg ∨ maxInt s.cfg < nat s.cfg s.din →
      exec (.new rd) s = .next (s.takeFatal .range)) ∧
    (s.cfg.N = s.cfg.W.bits → exec (.new rd) s = .next (s.writeReg rd s.din))

/-- R71: `TRYNEW` writes an in-range operand and clears RERR; on any other it sets RERR and writes no register; it
never faults. -/
def Obligations.TryNewAnswersInRerr : Prop :=
  ∀ (rd : Reg) (s : State),
    carries 0x11#8 .D (encode (.tryNew rd)) ∧
    (minInt s.cfg ≤ nat s.cfg s.din → nat s.cfg s.din ≤ maxInt s.cfg →
      exec (.tryNew rd) s = .next { s.writeReg rd s.din with status := { s.status with rerr := false } }) ∧
    (nat s.cfg s.din < minInt s.cfg ∨ maxInt s.cfg < nat s.cfg s.din →
      exec (.tryNew rd) s = .next { s with status := { s.status with rerr := true } }) ∧
    (s.cfg.N = s.cfg.W.bits →
      exec (.tryNew rd) s = .next { s.writeReg rd s.din with status := { s.status with rerr := false } })

/-- R72: `TNEW` writes the masked operand, whose narrow value is the wrapped operand; an in-range operand is stored
unchanged. The integer form is `[derived]`. -/
def Obligations.TNewTruncates : Prop :=
  ∀ (rd : Reg) (s : State),
    exec (.tNew rd) s = .next (s.writeReg rd (mask s.cfg s.din)) ∧
    value s.cfg (mask s.cfg s.din) = wrap s.cfg (nat s.cfg s.din) ∧
    (minInt s.cfg ≤ nat s.cfg s.din → nat s.cfg s.din ≤ maxInt s.cfg → mask s.cfg s.din = s.din) ∧
    (s.cfg.N = s.cfg.W.bits → exec (.tNew rd) s = .next (s.writeReg rd s.din))

/-- R73: `RAWNEW` stores the operand verbatim, and its narrow value is the one `TNEW` would give. -/
def Obligations.RawNewStoresVerbatim : Prop :=
  ∀ (rd : Reg) (s : State),
    exec (.rawNew rd) s = .next (s.writeReg rd s.din) ∧
    value s.cfg s.din = wrap s.cfg (nat s.cfg s.din) ∧
    value s.cfg s.din = value s.cfg (mask s.cfg s.din)

/-- R74, R75: `LDMIN` and `LDMAX` write the canonical words of MIN and MAX, whose bits are those the rules list. -/
def Obligations.ConstantsLoadAsListed : Prop :=
  ∀ (rd : Reg) (s : State), ∃ lo hi : Word s.cfg,
    carries 0x14#8 .D (encode (.ldMin rd)) ∧ carries 0x15#8 .D (encode (.ldMax rd)) ∧
    exec (.ldMin rd) s = .next (s.writeReg rd lo) ∧ exec (.ldMax rd) s = .next (s.writeReg rd hi) ∧
    nat s.cfg lo = minInt s.cfg ∧ nat s.cfg hi = maxInt s.cfg ∧
    (s.cfg.signed = false → lo = 0 ∧ hi = lowMask s.cfg) ∧
    (s.cfg.signed = true → ∀ i, i < s.cfg.W.bits →
      lo.getLsbD i = decide (s.cfg.N - 1 ≤ i) ∧ hi.getLsbD i = decide (i < s.cfg.N - 1))

/-- R76: `COPY` copies all W bits verbatim; onto itself it changes nothing. -/
def Obligations.CopyIsVerbatim : Prop :=
  ∀ (rd rs1 : Reg) (s : State),
    carries 0x16#8 .U (encode (.copy rd rs1)) ∧
    exec (.copy rd rs1) s = .next (s.writeReg rd (s.readReg rs1)) ∧ exec (.copy rd rd) s = .next s

/-- R82: `MASK` writes the masked word, keeps the narrow value, copies a canonical word unchanged and is `COPY` at the
full width. -/
def Obligations.MaskCommandCanonicalises : Prop :=
  ∀ (rd rs1 : Reg) (s : State),
    carries 0x17#8 .U (encode (.mask rd rs1)) ∧
    exec (.mask rd rs1) s = .next (s.writeReg rd (mask s.cfg (s.readReg rs1))) ∧
    value s.cfg (mask s.cfg (s.readReg rs1)) = value s.cfg (s.readReg rs1) ∧
    (mask s.cfg (s.readReg rs1) = s.readReg rs1 → exec (.mask rd rs1) s = exec (.copy rd rs1) s) ∧
    (s.cfg.N = s.cfg.W.bits → exec (.mask rd rs1) s = exec (.copy rd rs1) s)

-- Add and subtract

/-- R92: `WADD` writes the masked modular sum of the masked operands, which is the wrapped exact sum; masking the
operands first does not change it; MAX plus 1 wraps to MIN. The integer form and the form on raw sources are
`[derived]`. -/
def Obligations.WaddWrapsTheSum : Prop :=
  ∀ (rd rs1 rs2 : Reg) (s : State), ∃ v : Word s.cfg,
    exec (.wadd rd rs1 rs2) s = .next (s.writeReg rd v) ∧
    v = mask s.cfg (mask s.cfg (s.readReg rs1) + mask s.cfg (s.readReg rs2)) ∧
    v = mask s.cfg (s.readReg rs1 + s.readReg rs2) ∧
    mask s.cfg v = v ∧
    value s.cfg v = wrap s.cfg (value s.cfg (s.readReg rs1) + value s.cfg (s.readReg rs2)) ∧
    wrap s.cfg (maxInt s.cfg + 1) = minInt s.cfg

/-- R93: `WSUB` writes the wrapped exact difference; MIN less 1 wraps to MAX, a register less itself is 0, and in the
signed unit 0 less MIN is MIN. The integer form is `[derived]`. -/
def Obligations.WsubWrapsTheDifference : Prop :=
  ∀ (rd rs1 rs2 : Reg) (s : State), ∃ v : Word s.cfg,
    exec (.wsub rd rs1 rs2) s = .next (s.writeReg rd v) ∧
    v = mask s.cfg (mask s.cfg (s.readReg rs1) - mask s.cfg (s.readReg rs2)) ∧
    mask s.cfg v = v ∧
    value s.cfg v = wrap s.cfg (value s.cfg (s.readReg rs1) - value s.cfg (s.readReg rs2)) ∧
    wrap s.cfg (minInt s.cfg - 1) = maxInt s.cfg ∧
    (rs1 = rs2 → v = 0) ∧
    (s.cfg.signed = true → wrap s.cfg (0 - minInt s.cfg) = minInt s.cfg)

/-- R90: `ADD` raises OVERFLOW exactly when the unit checks and the exact sum is out of range; otherwise it writes
the wrapped sum, the exact one when in range; with CHK = 0 it is `WADD`. -/
def Obligations.AddChecksAtTheNarrowBounds : Prop :=
  ∀ (rd rs1 rs2 : Reg) (s : State) (r : Int),
    r = value s.cfg (s.readReg rs1) + value s.cfg (s.readReg rs2) →
    carries 0x20#8 .R (encode (.add rd rs1 rs2)) ∧
    (s.cfg.chk = true → (maxInt s.cfg < r ∨ r < minInt s.cfg) →
      exec (.add rd rs1 rs2) s = .next (s.takeFatal .overflow)) ∧
    (minInt s.cfg ≤ r → r ≤ maxInt s.cfg → exec (.add rd rs1 rs2) s = .next (s.writeReg rd (enc s.cfg r)) ∧
      value s.cfg (enc s.cfg r) = r ∧ mask s.cfg (enc s.cfg r) = enc s.cfg r) ∧
    (s.cfg.chk = false → exec (.add rd rs1 rs2) s = .next (s.writeReg rd (enc s.cfg (wrap s.cfg r))) ∧
      enc s.cfg (wrap s.cfg r) = mask s.cfg (mask s.cfg (s.readReg rs1) + mask s.cfg (s.readReg rs2)) ∧
      exec (.add rd rs1 rs2) s = exec (.wadd rd rs1 rs2) s)

/-- R91: `SUB` raises OVERFLOW exactly when the unit checks and the exact difference is out of range, in the unsigned
unit exactly when the first value is less; otherwise it writes the wrapped difference, the exact one when in range;
with CHK = 0 it is `WSUB`; a register less itself never faults. -/
def Obligations.SubChecksAtTheNarrowBounds : Prop :=
  ∀ (rd rs1 rs2 : Reg) (s : State) (r : Int),
    r = value s.cfg (s.readReg rs1) - value s.cfg (s.readReg rs2) →
    carries 0x21#8 .R (encode (.sub rd rs1 rs2)) ∧
    (s.cfg.chk = true → (maxInt s.cfg < r ∨ r < minInt s.cfg) →
      exec (.sub rd rs1 rs2) s = .next (s.takeFatal .overflow)) ∧
    (minInt s.cfg ≤ r → r ≤ maxInt s.cfg → exec (.sub rd rs1 rs2) s = .next (s.writeReg rd (enc s.cfg r)) ∧
      value s.cfg (enc s.cfg r) = r ∧ mask s.cfg (enc s.cfg r) = enc s.cfg r) ∧
    (s.cfg.chk = false → exec (.sub rd rs1 rs2) s = .next (s.writeReg rd (enc s.cfg (wrap s.cfg r))) ∧
      enc s.cfg (wrap s.cfg r) = mask s.cfg (mask s.cfg (s.readReg rs1) - mask s.cfg (s.readReg rs2)) ∧
      exec (.sub rd rs1 rs2) s = exec (.wsub rd rs1 rs2) s) ∧
    (s.cfg.signed = false → ((maxInt s.cfg < r ∨ r < minInt s.cfg) ↔
      value s.cfg (s.readReg rs1) < value s.cfg (s.readReg rs2))) ∧
    exec (.sub rd rs1 rs1) s = .next (s.writeReg rd 0)

-- Bitwise commands

/-- R100, R101, R102, R103: `AND`, `OR`, `XOR` write a canonical word whose low N bits are the operator of the
sources' low N bits, the masked operator of the raw words; of a register with itself they are `MASK`, `MASK` and 0.
The form on raw words is `[derived]`. -/
def Obligations.BitwiseCommandsActBitByBit : Prop :=
  ∀ (rd rs1 rs2 : Reg) (s : State), ∃ u v w : Word s.cfg,
    exec (.and rd rs1 rs2) s = .next (s.writeReg rd u) ∧
    exec (.or rd rs1 rs2) s = .next (s.writeReg rd v) ∧
    exec (.xor rd rs1 rs2) s = .next (s.writeReg rd w) ∧
    u = mask s.cfg (s.readReg rs1 &&& s.readReg rs2) ∧
    v = mask s.cfg (s.readReg rs1 ||| s.readReg rs2) ∧
    w = mask s.cfg (s.readReg rs1 ^^^ s.readReg rs2) ∧
    mask s.cfg u = u ∧ mask s.cfg v = v ∧ mask s.cfg w = w ∧
    (∀ i, i < s.cfg.N →
      u.getLsbD i = ((s.readReg rs1).getLsbD i && (s.readReg rs2).getLsbD i) ∧
      v.getLsbD i = ((s.readReg rs1).getLsbD i || (s.readReg rs2).getLsbD i) ∧
      w.getLsbD i = ((s.readReg rs1).getLsbD i ^^ (s.readReg rs2).getLsbD i)) ∧
    exec (.and rd rs1 rs1) s = exec (.mask rd rs1) s ∧ exec (.or rd rs1 rs1) s = exec (.mask rd rs1) s ∧
    exec (.xor rd rs1 rs1) s = .next (s.writeReg rd 0)

/-- R104: `NOT` writes the canonical word of MAX less the value (unsigned) or of minus the value less 1 (signed), the
complement of every one of the low N bits; done twice it masks. The integer forms are `[derived]`. -/
def Obligations.NotComplementsTheNarrowBits : Prop :=
  ∀ (rd rs1 : Reg) (s : State), ∃ v : Word s.cfg,
    exec (.not rd rs1) s = .next (s.writeReg rd v) ∧
    v = mask s.cfg (~~~(mask s.cfg (s.readReg rs1))) ∧
    mask s.cfg v = v ∧
    (∀ i, i < s.cfg.N → v.getLsbD i = !(s.readReg rs1).getLsbD i) ∧
    (s.cfg.signed = false → value s.cfg v = maxInt s.cfg - value s.cfg (s.readReg rs1)) ∧
    (s.cfg.signed = true → value s.cfg v = -(value s.cfg (s.readReg rs1)) - 1 ∧
      v = ~~~(mask s.cfg (s.readReg rs1))) ∧
    mask s.cfg (~~~(mask s.cfg v)) = mask s.cfg (s.readReg rs1) ∧
    (s.cfg.N = s.cfg.W.bits → v = ~~~(s.readReg rs1))

-- Shifts

/-- R110: `SHL` by less than W writes the wrapped product with `2^k`, 0 from k = N on, and is `MASK` at k = 0. -/
def Obligations.ShlMultipliesAndWraps : Prop :=
  ∀ (rd rs1 : Reg) (k : Imm8) (s : State),
    carries 0x40#8 .S (encode (.shl rd rs1 k)) ∧
    (k.toNat < s.cfg.W.bits → ∃ v : Word s.cfg, exec (.shl rd rs1 k) s = .next (s.writeReg rd v) ∧
      v = mask s.cfg (mask s.cfg (s.readReg rs1) <<< k.toNat) ∧ mask s.cfg v = v ∧
      value s.cfg v = wrap s.cfg (value s.cfg (s.readReg rs1) * 2 ^ k.toNat) ∧
      (s.cfg.N ≤ k.toNat → v = 0) ∧
      (k = 0 → exec (.shl rd rs1 k) s = exec (.mask rd rs1) s)) ∧
    (s.cfg.W.bits ≤ k.toNat → exec (.shl rd rs1 k) s = .next (s.takeFatal .shift))

/-- R111, R113: `SHR` by less than W writes the floor of the narrow value divided by `2^k`: the masked operand is what
is shifted, and masking the result changes nothing. From k = N on (N − 1 in the signed unit) it is 0 or −1, and at k =
0 it is `MASK`. What a right shift fills with is the spec's general knowledge G1 (notes/assumptions/7.md). -/
def Obligations.ShrDividesTheNarrowValue : Prop :=
  ∀ (rd rs1 : Reg) (k : Imm8) (s : State),
    (k.toNat < s.cfg.W.bits → ∃ v : Word s.cfg, exec (.shr rd rs1 k) s = .next (s.writeReg rd v) ∧
      v = shiftRightWord s.cfg (mask s.cfg (s.readReg rs1)) k.toNat ∧ mask s.cfg v = v ∧
      value s.cfg v = value s.cfg (s.readReg rs1) / 2 ^ k.toNat ∧
      (s.cfg.N ≤ k.toNat ∨ (s.cfg.signed = true ∧ s.cfg.N = k.toNat + 1) →
        value s.cfg v = if value s.cfg (s.readReg rs1) < 0 then -1 else 0) ∧
      (k = 0 → exec (.shr rd rs1 k) s = exec (.mask rd rs1) s)) ∧
    (s.cfg.W.bits ≤ k.toNat → exec (.shr rd rs1 k) s = .next (s.takeFatal .shift))

/-- R112, R145: a shift halts a running unit exactly when the amount is W or more, whatever N, the kind and the check
mode; the cause is then SHIFT and no register is written. -/
def Obligations.ShiftFaultsExactlyFromStorageWidth : Prop :=
  ∀ (rd rs1 : Reg) (k : Imm8) (s : State) (i : Instr), i = .shl rd rs1 k ∨ i = .shr rd rs1 k →
    s.status.halt = false →
    ((∃ t, exec i s = .next t ∧ t.status.halt = true) ↔ s.cfg.W.bits ≤ k.toNat) ∧
    (∀ t, exec i s = .next t → t.status.halt = true → t.status.cause = .shift ∧
      ∃ (f : Status) (w : BitVec 32), t = { s with status := f, fcmd := w })

-- Comparison and extraction

/-- R120: `CMP` writes the three flags from the narrow values, exactly one of them is 1, and nothing else changes; the
storage type's own comparison of the masked words is the same. The agreement of the two comparisons is `[derived]`. -/
def Obligations.CmpOrdersTheNarrowValues : Prop :=
  ∀ (rs1 rs2 : Reg) (s : State) (a b : Int),
    a = value s.cfg (s.readReg rs1) → b = value s.cfg (s.readReg rs2) →
    ∃ f : Status, exec (.cmp rs1 rs2) s = .next { s with status := f } ∧
      f.rerr = s.status.rerr ∧ f.halt = s.status.halt ∧ f.cause = s.status.cause ∧
      (f.eq = true ↔ a = b) ∧ (f.lt = true ↔ a < b) ∧ (f.gt = true ↔ b < a) ∧
      ((f.eq, f.lt, f.gt) = (true, false, false) ∨ (f.eq, f.lt, f.gt) = (false, true, false) ∨
        (f.eq, f.lt, f.gt) = (false, false, true)) ∧
      (s.cfg.signed = false → f.lt = (mask s.cfg (s.readReg rs1)).ult (mask s.cfg (s.readReg rs2))) ∧
      (s.cfg.signed = true → f.lt = (mask s.cfg (s.readReg rs1)).slt (mask s.cfg (s.readReg rs2))) ∧
      (rs1 = rs2 → f.eq = true)

/-- R121: after a `CMP` the six operators and the three-way ordering read from the flags are those of the narrow
values. -/
def Obligations.FlagsReadAsComparisonOperators : Prop :=
  ∀ (rs1 rs2 : Reg) (s t : State), exec (.cmp rs1 rs2) s = .next t →
    (∀ op : CmpOp, t.status.holds op = true ↔ op.holdsOn (s.valueOf rs1) (s.valueOf rs2)) ∧
    t.status.ordering = some (compare (s.valueOf rs1) (s.valueOf rs2))

/-- R130: `GET` delivers the masked word, whose native reading is the narrow value, at W bits and at every wider native
type; no flag and no value register changes. -/
def Obligations.GetDeliversTheNarrowValue : Prop :=
  ∀ (rs1 : Reg) (s : State), ∃ v : Word s.cfg,
    exec (.get rs1) s = .next { s with dout := v } ∧ v = mask s.cfg (s.readReg rs1) ∧ mask s.cfg v = v ∧
    nat s.cfg v = value s.cfg (s.readReg rs1) ∧
    (∀ w, s.cfg.W.bits ≤ w → natOfWidth s.cfg (widened s.cfg v w) = value s.cfg (s.readReg rs1))

/-- S3 of 95_test_vectors.md: `NEW`, successful `TRYNEW` or `TNEW` of an in-range operand, then `GET` of that register,
returns the operand. -/
def Obligations.ConstructThenGetReturnsTheOperand : Prop :=
  ∀ (rd : Reg) (s : State) (i : Instr), i = .new rd ∨ i = .tryNew rd ∨ i = .tNew rd →
    minInt s.cfg ≤ nat s.cfg s.din → nat s.cfg s.din ≤ maxInt s.cfg →
    ∃ t u, exec i s = .next t ∧ exec (.get rd) t = .next u ∧ u.cfg = s.cfg ∧ nat u.cfg u.dout = nat s.cfg s.din

-- Frames

/-- R23, R27, R30: what a command with a destination register leaves unchanged: every other register, `DOUT`, the
comparison flags, the parameters and the ports; RERR unless it is `TRYNEW`; and HALT, CAUSE and FCMD unless it faults,
in which case its register is unchanged too. -/
def Obligations.FrameOfRegisterCommands : Prop :=
  ∀ (i : Instr) (d : Reg) (s : State), i.dest = some d →
    ∃ (y : Vector (Word s.cfg) 16) (f : Status) (w : BitVec 32),
      exec i s = .next { s with x := y, status := f, fcmd := w } ∧
      (∀ r, r ≠ d → y.get r = s.x.get r) ∧
      f.eq = s.status.eq ∧ f.lt = s.status.lt ∧ f.gt = s.status.gt ∧
      (i ≠ .tryNew d → f.rerr = s.status.rerr) ∧
      (fatalCause i s = none → f.halt = s.status.halt ∧ f.cause = s.status.cause ∧ w = s.fcmd) ∧
      (fatalCause i s ≠ none → y.get d = s.x.get d ∧ f.rerr = s.status.rerr)

/-- R32, R52: a command other than the four constructions gives the same next state whatever `din` carries, but for
the port itself. -/
def Obligations.DinIsIgnoredByOtherCommands : Prop :=
  ∀ (i : Instr) (s : State) (d : Word s.cfg), i.readsDin = false →
    ∃ (y : Vector (Word s.cfg) 16) (f : Status) (w : BitVec 32) (v : Word s.cfg),
      exec i s = .next { s with x := y, status := f, fcmd := w, dout := v } ∧
      exec i { s with din := d } = .next { s with x := y, status := f, fcmd := w, dout := v, din := d }

/-- R26: a register a command leaves behind is unchanged or is its destination, holding a canonical word, unless the
command is `RAWNEW` or `COPY`; so only `RAWNEW` brings a dirty word into canonical registers. The spec marks the rule
`[derived]`. -/
def Obligations.OnlyRawNewBringsDirt : Prop :=
  ∀ (i : Instr) (s t : State), exec i s = .next t →
    ((∀ d, i ≠ .rawNew d) → (∀ d a, i ≠ .copy d a) →
      ∃ (y : Vector (Word s.cfg) 16) (f : Status) (w : BitVec 32) (v : Word s.cfg),
        t = { s with x := y, status := f, fcmd := w, dout := v } ∧
        ∀ r, y.get r = s.x.get r ∨ (i.dest = some r ∧ mask s.cfg (y.get r) = y.get r)) ∧
    ((∀ d, i ≠ .rawNew d) → s.allCanonical → t.allCanonical)

/-- R25, R122: dirty bits cannot be seen by a command: register files that agree as values give next states that
differ in nothing but the register words, and those agree as values again. -/
def Obligations.CommandsCannotSeeDirtyBits : Prop :=
  ∀ (i : Instr) (s : State) (y : Vector (Word s.cfg) 16), sameValues s.cfg s.x y →
    ∃ (t : State) (z : Vector (Word t.cfg) 16),
      exec i s = .next t ∧ exec i { s with x := y } = .next { t with x := z } ∧ sameValues t.cfg t.x z

-- Status, configuration and ports

/-- R27: the `STATUS` word: each field at its place, the reserved bits 0, and 0x0000 after reset. -/
def Obligations.StatusWordLayout : Prop :=
  (∀ f : Status, f.word.getLsbD 0 = f.eq ∧ f.word.getLsbD 1 = f.lt ∧ f.word.getLsbD 2 = f.gt ∧
    f.word.getLsbD 3 = f.rerr ∧ f.word.getLsbD 4 = f.halt ∧ f.word.extractLsb' 5 3 = 0 ∧
    f.word.extractLsb' 8 4 = f.cause.code ∧ f.word.extractLsb' 12 4 = 0) ∧
  Status.reset.word = 0x0000

/-- R28: the `CFG` word of every instantiation holds N, the width code, SIGNED and CHK, its reserved bits 0; it
determines the instantiation; and no step, a reset among them, changes it. -/
def Obligations.CfgWordIdentifiesTheUnit : Prop :=
  (∀ c : Config, ((cfgWord c).extractLsb' 0 8).toNat = c.N ∧ (cfgWord c).extractLsb' 8 3 = widthCode c.W ∧
    (cfgWord c).getLsbD 11 = c.signed ∧ (cfgWord c).getLsbD 12 = c.chk ∧ (cfgWord c).extractLsb' 13 3 = 0 ∧
    2 ^ ((widthCode c.W).toNat + 3) = c.W.bits) ∧
  (∀ c c' : Config, cfgWord c = cfgWord c' → c = c') ∧
  (∀ s t : State, step s = .next t → t.cfgPort = s.cfgPort)

/-- R27, R29, R30: which command an accepted edge must carry for a status field, `DOUT` or the fault record to change.
`DOUT` words of the two states are compared as numbers. -/
def Obligations.FieldsChangeOnlyByTheirCommand : Prop :=
  ∀ (s t : State) (e : Edge s.cfg.W.bits) (rest : List (Edge s.cfg.W.bits)),
    s.coming = e :: rest → e.rst = false → step s = .next t →
    ((t.status.eq, t.status.lt, t.status.gt) ≠ (s.status.eq, s.status.lt, s.status.gt) →
      ∃ a b, decode e.cmd = .ok (.cmp a b)) ∧
    (t.status.rerr ≠ s.status.rerr → ∃ d, decode e.cmd = .ok (.tryNew d)) ∧
    (t.dout.toNat ≠ s.dout.toNat → ∃ a, decode e.cmd = .ok (.get a)) ∧
    ((t.status.halt, t.status.cause, t.fcmd) ≠ (s.status.halt, s.status.cause, s.fcmd) →
      s.status.halt = false ∧ t.status.halt = true ∧ t.fcmd = e.cmd)

/-- R7, R28, R96: no step changes the parameters. -/
def Obligations.ParametersNeverChange : Prop :=
  ∀ s t : State, step s = .next t → t.cfg = s.cfg ∧ t.cfgPort = s.cfgPort

-- The step

/-- R31, R63: when an edge presents a command to a running unit that has been reset, the step is the command's meaning
on the sampled ports. The step is one edge (notes/assumptions/4.md). -/
def Obligations.StepRunsTheDecodedCommand : Prop :=
  ∀ (s : State) (e : Edge s.cfg.W.bits) (rest : List (Edge s.cfg.W.bits)) (i : Instr),
    s.coming = e :: rest → e.rst = false → e.cmdValid = true → s.everReset = true → s.status.halt = false →
    decode e.cmd = .ok i →
    step s = exec i { s with cmd := e.cmd, din := e.din, coming := rest }

/-- R31: an edge without a command, and an edge the host does not drive, changes nothing but what the ports carry. The
step is one edge (notes/assumptions/4.md). -/
def Obligations.EdgesWithoutCommandChangeNothing : Prop :=
  ∀ s : State, s.everReset = true →
    (s.coming = [] → step s = .next s) ∧
    (∀ e rest, s.coming = e :: rest → e.rst = false → e.cmdValid = false →
      step s = .next { s with cmd := e.cmd, din := e.din, coming := rest })

/-- R60, R146: a word that matches no row of the table, presented to a running unit, raises ILLEGAL, records the word
and has no other effect. -/
def Obligations.IllegalWordsHaltTheUnit : Prop :=
  ∀ (s : State) (e : Edge s.cfg.W.bits) (rest : List (Edge s.cfg.W.bits)),
    s.coming = e :: rest → e.rst = false → e.cmdValid = true → s.everReset = true → s.status.halt = false →
    (∀ r ∈ opTable, ¬ r.matchesWord e.cmd) →
    step s = .next { s with cmd := e.cmd, din := e.din, coming := rest, fcmd := e.cmd,
                            status := { s.status with halt := true, cause := .illegal } }

/-- R160: a reset edge gives the reset state from any state at all, whatever else the edge presents; the value
registers come up with any words, and the parameters stay. That the edge carries those words, and the field that
records a first reset, are the model's own (notes/assumptions/3.md, notes/assumptions/4.md). -/
def Obligations.ResetEdgeGivesTheResetState : Prop :=
  ∀ (s : State) (e : Edge s.cfg.W.bits) (rest : List (Edge s.cfg.W.bits)),
    s.coming = e :: rest → e.rst = true →
    step s = .next { State.resetOf s.cfg e.fresh with cmd := e.cmd, din := e.din, coming := rest } ∧
    s.cmdReady e.rst = false ∧
    (State.resetOf s.cfg e.fresh).statusPort = 0x0000 ∧ (State.resetOf s.cfg e.fresh).fcmd = 0x00000000 ∧
    (State.resetOf s.cfg e.fresh).dout = 0

/-- R147: a halted unit accepts nothing: over any number of edges without a reset its state changes in nothing but
what the ports carried, and `cmd_ready` is 0. -/
def Obligations.HaltedUnitAcceptsNothing : Prop :=
  ∀ (s : State) (k : Nat), s.everReset = true → s.status.halt = true → (∀ e ∈ s.coming, e.rst = false) →
    (∀ b, s.cmdReady b = false) ∧
    ∃ (w : CmdWord) (d : Word s.cfg),
      Sys2Proof.core.run k s = .next { s with cmd := w, din := d, coming := s.coming.drop k }

/-- R149: no step but a reset edge takes a unit out of the halted state. -/
def Obligations.OnlyResetLeavesHalt : Prop :=
  ∀ s t : State, step s = .next t → s.status.halt = true → t.status.halt = false →
    ∃ e rest, s.coming = e :: rest ∧ e.rst = true ∧ t.status = Status.reset ∧ t.fcmd = 0

/-- R162: before the first reset no edge but a reset edge has a meaning, and the step is refused by name. The refusal
is the model's choice, following U6 (notes/assumptions/6.md). -/
def Obligations.NothingRunsBeforeTheFirstReset : Prop :=
  ∀ s : State, s.everReset = false → (∀ e rest, s.coming = e :: rest → e.rst = false) →
    step s = .refused .beforeFirstReset

/-- R43, R169: a unit that has been reset answers every step with a next state. That this state again has been reset,
and that exactly one edge is used up, are about the model's own fields `everReset` and `coming`
(notes/assumptions/4.md, notes/assumptions/6.md). -/
def Obligations.UnitNeverStopsByItself : Prop :=
  ∀ s : State, s.everReset = true → ∃ t, step s = .next t ∧ t.everReset = true ∧ t.coming.length = s.coming.length - 1

-- Invariant and headline results

/-- Every reset, of every unit and with every register contents, satisfies the invariant; so does `State.reset`, whose
instantiation and register words are the model's own choice (notes/assumptions/1.md, notes/assumptions/2.md). -/
def Obligations.ResetSatisfiesTheInvariant : Prop :=
  (∀ (c : Config) (x : Vector (Word c) 16), (State.resetOf c x).Inv) ∧ State.reset.Inv

/-- R27, R29, R30, R142: every step keeps the invariant: `DOUT` canonical, the comparison flags exclusive, an empty
record while running, and a genuine fault record once halted. -/
def Obligations.EveryStepKeepsTheInvariant : Prop :=
  ∀ s t : State, s.Inv → step s = .next t → t.Inv

/-- R25 over whole runs: units whose registers agree as values run alike for any number of steps: STATUS, FCMD, DOUT
and everything but the register words are the same, and the registers agree as values all the way. -/
def Obligations.RunsCannotSeeDirtyBits : Prop :=
  ∀ (k : Nat) (s : State) (y : Vector (Word s.cfg) 16), s.everReset = true → sameValues s.cfg s.x y →
    ∃ (t : State) (z : Vector (Word t.cfg) 16),
      Sys2Proof.core.run k s = .next t ∧ Sys2Proof.core.run k { s with x := y } = .next { t with x := z } ∧
      sameValues t.cfg t.x z

/-- R161, R163: if the host constructs every register before a command reads it, the run after reset does not depend
on the words reset left in the value registers: after any number of steps the two runs differ in nothing but value
registers. -/
def Obligations.ConstructedProgramsIgnoreResetContents : Prop :=
  ∀ (c : Config) (es : List (Edge c.W.bits)) (x y : Vector (Word c) 16) (k : Nat),
    constructsBeforeReading c [] es = true →
    ∃ (t : State) (z : Vector (Word t.cfg) 16),
      Sys2Proof.core.run k { State.resetOf c x with coming := es } = .next t ∧
      Sys2Proof.core.run k { State.resetOf c y with coming := es } = .next { t with x := z }

-- Host-side conversions

/-- R131: a native type whose whole range lies in the narrow range converts without a fault: unsigned of at most N
bits into the unsigned unit, signed of at most N bits and unsigned of at most N − 1 bits into the signed unit. The
spec marks the list of types `[derived]`. -/
def Obligations.LosslessConversionsNeverFault : Prop :=
  ∀ (rd : Reg) (s : State) (w : Nat) (v : BitVec w),
    (s.cfg.signed = false → w ≤ s.cfg.N → s.din = dinOfUnsigned s.cfg v →
      exec (.new rd) s = .next (s.writeReg rd s.din) ∧ value s.cfg s.din = v.toNat) ∧
    (s.cfg.signed = true → w ≤ s.cfg.N → s.din = dinOfSigned s.cfg v →
      exec (.new rd) s = .next (s.writeReg rd s.din) ∧ value s.cfg s.din = v.toInt) ∧
    (s.cfg.signed = true → w ≤ s.cfg.N - 1 → s.din = dinOfUnsigned s.cfg v →
      exec (.new rd) s = .next (s.writeReg rd s.din) ∧ value s.cfg s.din = v.toNat)

/-- R132, R133: a fallible narrowing conversion is the error exactly when the integer is outside the narrow range, and
otherwise the register holds the integer. -/
def Obligations.NarrowingFailsExactlyOutsideTheRange : Prop :=
  ∀ (rd : Reg) (z : Int) (s : State),
    (z < minInt s.cfg ∨ maxInt s.cfg < z → narrowInto rd z s = none) ∧
    (minInt s.cfg ≤ z → z ≤ maxInt s.cfg →
      ∃ t, narrowInto rd z s = some t ∧ t.valueOf rd = z ∧ t.status.rerr = false ∧
        ∀ r, r ≠ rd → (t.readReg r).toNat = (s.readReg r).toNat)
end

