-- ==== Sys2Proof/Laws/Encoding.lean ====
section
/-! SUPPORT. What the fields of a packed word are, that a word is the packing of its fields, and the register fields'
two readings: what a proof about the encoding needs, so that it never unfolds a word again. -/

namespace Sys2Proof

theorem regOfField_fieldOfReg (r : Reg) : regOfField (fieldOfReg r) = r := by
  apply Fin.ext
  simp only [regOfField, fieldOfReg, BitVec.toNat_ofNat]
  exact Nat.mod_eq_of_lt r.isLt

theorem fieldOfReg_regOfField (f : BitVec 4) : fieldOfReg (regOfField f) = f := by
  simp [regOfField, fieldOfReg]

variable (op : BitVec 8) (d a b : BitVec 4) (k : Imm8)

theorem opField_packWord : opField (packWord op d a b k) = op := by
  apply BitVec.eq_of_getLsbD_eq
  intro i hi
  simp only [opField, packWord, BitVec.getLsbD_extractLsb', BitVec.getLsbD_append]
  split_ifs <;> first | omega | (rw [decide_eq_true hi, Bool.true_and]; congr 1; omega)

theorem rdField_packWord : rdField (packWord op d a b k) = d := by
  apply BitVec.eq_of_getLsbD_eq
  intro i hi
  simp only [rdField, packWord, BitVec.getLsbD_extractLsb', BitVec.getLsbD_append]
  split_ifs <;> first | omega | (rw [decide_eq_true hi, Bool.true_and]; congr 1; omega)

theorem rs1Field_packWord : rs1Field (packWord op d a b k) = a := by
  apply BitVec.eq_of_getLsbD_eq
  intro i hi
  simp only [rs1Field, packWord, BitVec.getLsbD_extractLsb', BitVec.getLsbD_append]
  split_ifs <;> first | omega | (rw [decide_eq_true hi, Bool.true_and]; congr 1; omega)

theorem rs2Field_packWord : rs2Field (packWord op d a b k) = b := by
  apply BitVec.eq_of_getLsbD_eq
  intro i hi
  simp only [rs2Field, packWord, BitVec.getLsbD_extractLsb', BitVec.getLsbD_append]
  split_ifs <;> first | omega | (rw [decide_eq_true hi, Bool.true_and]; congr 1; omega)

theorem zField_packWord : zField (packWord op d a b k) = 0#4 := by
  apply BitVec.eq_of_getLsbD_eq
  intro i hi
  simp only [zField, packWord, BitVec.getLsbD_extractLsb', BitVec.getLsbD_append]
  split_ifs <;> first | omega | simp

theorem imm8Field_packWord : imm8Field (packWord op d a b k) = k := by
  apply BitVec.eq_of_getLsbD_eq
  intro i hi
  simp only [imm8Field, packWord, BitVec.getLsbD_extractLsb', BitVec.getLsbD_append]
  split_ifs <;> first | omega | (rw [decide_eq_true hi, Bool.true_and]; congr 1; omega)

/-- A word whose field `z` is zero is the packing of its other fields (R51). -/
theorem packWord_fields (w : CmdWord) (hz : zField w = 0#4) :
    packWord (opField w) (rdField w) (rs1Field w) (rs2Field w) (imm8Field w) = w := by
  unfold packWord
  rw [← hz]
  unfold opField rdField rs1Field rs2Field zField imm8Field
  apply BitVec.eq_of_getLsbD_eq
  intro i hi
  simp only [BitVec.getLsbD_extractLsb', BitVec.getLsbD_append]
  split_ifs <;> (rw [decide_eq_true (by omega), Bool.true_and]; congr 1; omega)

/-- A word under a format is the given command exactly when the fields the format does not use are zero (R60). -/
theorem underFormat_eq_ok_iff (f : Format) (w : CmdWord) (i j : Instr) :
    underFormat f w i = .ok j ↔ (∀ g ∈ f.zeroFields, fieldIsZero w g = true) ∧ i = j := by
  unfold underFormat
  cases h : f.zeroFields.find? (fun g => !fieldIsZero w g) with
  | none =>
    have hall := List.find?_eq_none.mp h
    simp only [Bool.not_eq_true, Bool.not_eq_false'] at hall
    simpa using fun _ => hall
  | some g =>
    have hmem := List.mem_of_find?_eq_some h
    have hg := List.find?_some h
    simp only [Bool.not_eq_true'] at hg
    constructor
    · intro hc
      cases hc
    · intro hc
      rw [hc.1 g hmem] at hg
      cases hg

end Sys2Proof
end

