-- ==== Sys2Proof/Laws/Operands.lean ====
section
/-! SUPPORT. What the reading of a storage word does: the bits of `LOWMASK` and of a masked word, and the narrow value
as the wrapped unsigned reading, from which the integer forms of the commands follow. -/

namespace Sys2Proof.Machine

variable (c : Config)

theorem width_pos : 0 < c.W.bits := Nat.lt_of_lt_of_le c.one_le_N c.N_le_W

theorem pow_N_dvd_pow_W : 2 ^ c.N ∣ 2 ^ c.W.bits := Nat.pow_dvd_pow 2 c.N_le_W

theorem two_pow_N : 2 ^ c.N = 2 * 2 ^ (c.N - 1) := by
  have h := c.one_le_N
  rw [show c.N = (c.N - 1) + 1 from by omega, Nat.pow_succ]
  simp [Nat.mul_comm]

/-- `LOWMASK` as a number, at every width (R81). -/
theorem toNat_lowMask : (lowMask c).toNat = 2 ^ c.N - 1 := by
  have hpos : 0 < 2 ^ c.N := Nat.two_pow_pos _
  have hW : 1 < 2 ^ c.W.bits := Nat.one_lt_two_pow (Nat.pos_iff_ne_zero.mp (width_pos c))
  have hone : (BitVec.ofNat c.W.bits 1).toNat = 1 := by
    rw [BitVec.toNat_ofNat, Nat.mod_eq_of_lt hW]
  rw [lowMask, BitVec.toNat_sub, BitVec.toNat_shiftLeft, hone, Nat.shiftLeft_eq, Nat.one_mul]
  rcases Nat.lt_or_eq_of_le c.N_le_W with h | h
  · have hlt : 2 ^ c.N < 2 ^ c.W.bits := Nat.pow_lt_pow_right (by omega) h
    rw [Nat.mod_eq_of_lt hlt, show 2 ^ c.W.bits - 1 + 2 ^ c.N = 2 ^ c.N - 1 + 2 ^ c.W.bits from by omega,
      Nat.add_mod_right, Nat.mod_eq_of_lt (by omega)]
  · rw [h, Nat.mod_self, Nat.add_zero, Nat.mod_eq_of_lt (by omega)]

/-- The bits of `LOWMASK` (R9). -/
theorem getLsbD_lowMask (i : Nat) : (lowMask c).getLsbD i = decide (i < c.N) := by
  rw [BitVec.getLsbD, toNat_lowMask, Nat.testBit_two_pow_sub_one]

/-- The bits of a masked word (R80): the low N bits stay, a bit from N up is the sign bit in the signed unit and 0 in
the unsigned unit. -/
theorem getLsbD_mask (s : Word c) (i : Nat) (hi : i < c.W.bits) :
    (mask c s).getLsbD i = if i < c.N then s.getLsbD i else c.signed && s.getLsbD (c.N - 1) := by
  unfold mask signBit
  by_cases hs : (c.signed && s.getLsbD (c.N - 1)) = true
  · rw [if_pos hs]
    simp only [BitVec.getLsbD_or, BitVec.getLsbD_not, getLsbD_lowMask, hi, decide_true, Bool.true_and]
    by_cases hN : i < c.N <;> simp [hN, hs]
  · rw [if_neg hs]
    simp only [BitVec.getLsbD_and, getLsbD_lowMask]
    by_cases hN : i < c.N <;> simp [hN, hs]

/-- In the unsigned unit a masked word is the zero extension of its low N bits (R80). -/
theorem mask_unsigned (h : c.signed = false) (s : Word c) : mask c s = (s.extractLsb' 0 c.N).setWidth c.W.bits := by
  apply BitVec.eq_of_getLsbD_eq
  intro i hi
  rw [getLsbD_mask c s i hi]
  by_cases hN : i < c.N <;> simp [h, hN, hi]

/-- In the signed unit a masked word is the sign extension of its low N bits (R80). -/
theorem mask_signed (h : c.signed = true) (s : Word c) : mask c s = (s.extractLsb' 0 c.N).signExtend c.W.bits := by
  apply BitVec.eq_of_getLsbD_eq
  intro i hi
  have h1 := c.one_le_N
  rw [getLsbD_mask c s i hi, BitVec.getLsbD_signExtend]
  by_cases hN : i < c.N
  · simp [hN, hi]
  · simp [h, hN, hi, BitVec.msb_eq_getLsbD_last, show c.N - 1 < c.N from by omega]

theorem toNat_lowSlice (s : Word c) : (s.extractLsb' 0 c.N).toNat = s.toNat % 2 ^ c.N := by
  simp

/-- The narrow value is the wrapped unsigned reading of the storage word (R11). -/
theorem value_eq_wrap (s : Word c) : value c s = wrap c (s.toNat : Int) := by
  unfold value nat wrap
  by_cases h : c.signed = true
  · rw [if_pos h, if_pos h, mask_signed c h, BitVec.toInt_signExtend_of_le c.N_le_W, BitVec.toInt_eq_toNat_bmod,
      toNat_lowSlice]
    push_cast
    exact Int.emod_bmod ..
  · have h' : c.signed = false := by simpa using h
    rw [if_neg h, if_neg h, mask_unsigned c h', BitVec.toNat_setWidth, toNat_lowSlice,
      Nat.mod_eq_of_lt (Nat.lt_of_lt_of_le (Nat.mod_lt _ (Nat.two_pow_pos _))
        (Nat.pow_le_pow_right (by omega) c.N_le_W))]
    push_cast
    rfl

/-- `wrap` lands in the narrow range (R11). -/
theorem wrap_bounds (z : Int) : minInt c ≤ wrap c z ∧ wrap c z ≤ maxInt c := by
  have h2 := two_pow_N c
  have hp : 0 < 2 ^ (c.N - 1) := Nat.two_pow_pos _
  unfold minInt maxInt wrap
  by_cases h : c.signed = true
  · rw [if_pos h, if_pos h, if_pos h]
    have hlo := Int.le_bmod (x := z) (m := 2 ^ c.N) (Nat.two_pow_pos _)
    have hhi := Int.bmod_lt (x := z) (m := 2 ^ c.N) (Nat.two_pow_pos _)
    omega
  · rw [if_neg h, if_neg h, if_neg h]
    have hpos : (0 : Int) < ((2 ^ c.N : Nat) : Int) := by exact_mod_cast Nat.two_pow_pos _
    have hlo := Int.emod_nonneg z (Int.ne_of_gt hpos)
    have hhi := Int.emod_lt_of_pos z hpos
    omega

/-- `wrap` keeps the residue modulo `2^N` (R11). -/
theorem wrap_emod (z : Int) : wrap c z % ((2 ^ c.N : Nat) : Int) = z % ((2 ^ c.N : Nat) : Int) := by
  unfold wrap
  by_cases h : c.signed = true
  · rw [if_pos h, Int.bmod_emod]
  · rw [if_neg h, Int.emod_emod_of_dvd _ (dvd_refl _)]

/-- The narrow range holds at most one integer of each residue (00_scope.md section 5). -/
theorem narrow_unique {y z : Int} (hy : minInt c ≤ y ∧ y ≤ maxInt c) (hz : minInt c ≤ z ∧ z ≤ maxInt c)
    (h : y % ((2 ^ c.N : Nat) : Int) = z % ((2 ^ c.N : Nat) : Int)) : y = z := by
  have h2 := two_pow_N c
  have hd : ((2 ^ c.N : Nat) : Int) ∣ y - z := Int.dvd_of_emod_eq_zero (Int.emod_eq_emod_iff_emod_sub_eq_zero.mp h)
  have hp : 0 < 2 ^ (c.N - 1) := Nat.two_pow_pos _
  have hlt : |y - z| < ((2 ^ c.N : Nat) : Int) := by
    rw [abs_lt]
    unfold minInt maxInt at hy hz
    by_cases hs : c.signed = true <;> simp only [hs, if_true, if_false, Bool.false_eq_true] at hy hz <;> omega
  have := Int.eq_zero_of_abs_lt_dvd hd hlt
  omega

/-- An integer in the narrow range is its own wrapping. -/
theorem wrap_of_narrow {z : Int} (h : minInt c ≤ z ∧ z ≤ maxInt c) : wrap c z = z :=
  narrow_unique c (wrap_bounds c z) h (wrap_emod c z)

/-- `wrap` depends only on the residue modulo `2^N`. -/
theorem wrap_congr {y z : Int} (h : y % ((2 ^ c.N : Nat) : Int) = z % ((2 ^ c.N : Nat) : Int)) :
    wrap c y = wrap c z :=
  narrow_unique c (wrap_bounds c y) (wrap_bounds c z) (by rw [wrap_emod, wrap_emod, h])

/-- The narrow value of a word lies in the narrow range (R11). -/
theorem value_bounds (s : Word c) : minInt c ≤ value c s ∧ value c s ≤ maxInt c := by
  rw [value_eq_wrap]
  exact wrap_bounds c _

/-- The narrow value of a word has the residue of its unsigned reading (R11). -/
theorem value_emod (s : Word c) : value c s % ((2 ^ c.N : Nat) : Int) = (s.toNat : Int) % ((2 ^ c.N : Nat) : Int) := by
  rw [value_eq_wrap, wrap_emod]

/-- The native reading and the unsigned reading of a word have the same residue modulo `2^N`. -/
theorem nat_emod (s : Word c) : nat c s % ((2 ^ c.N : Nat) : Int) = (s.toNat : Int) % ((2 ^ c.N : Nat) : Int) := by
  have hdvd : ((2 ^ c.N : Nat) : Int) ∣ ((2 ^ c.W.bits : Nat) : Int) := by exact_mod_cast pow_N_dvd_pow_W c
  unfold nat
  by_cases h : c.signed = true
  · rw [if_pos h, ← Int.emod_emod_of_dvd s.toInt hdvd, BitVec.toInt_eq_toNat_bmod, Int.bmod_emod,
      Int.emod_emod_of_dvd _ hdvd]
  · rw [if_neg h]

/-- Two words with the same native reading are the same word. -/
theorem nat_injective {s t : Word c} (h : nat c s = nat c t) : s = t := by
  unfold nat at h
  by_cases hs : c.signed = true
  · rw [if_pos hs, if_pos hs] at h
    exact BitVec.eq_of_toInt_eq h
  · rw [if_neg hs, if_neg hs] at h
    exact BitVec.eq_of_toNat_eq (by exact_mod_cast h)

/-- Masked words are equal exactly when the narrow values are (R122). -/
theorem mask_eq_iff_value_eq {s t : Word c} : mask c s = mask c t ↔ value c s = value c t :=
  ⟨fun h => by unfold value; rw [h], fun h => nat_injective c h⟩

/-- Words with the same residue modulo `2^N` have the same masked word. -/
theorem mask_eq_of_emod {s t : Word c} (h : s.toNat % 2 ^ c.N = t.toNat % 2 ^ c.N) : mask c s = mask c t := by
  rw [mask_eq_iff_value_eq, value_eq_wrap, value_eq_wrap]
  apply wrap_congr
  exact_mod_cast h

/-- A masked word has the residue of the word it came from. -/
theorem toNat_mask_emod (s : Word c) : (mask c s).toNat % 2 ^ c.N = s.toNat % 2 ^ c.N := by
  rw [← toNat_lowSlice, ← toNat_lowSlice]
  congr 1
  apply BitVec.eq_of_getLsbD_eq
  intro i hi
  have hW := c.N_le_W
  simp only [BitVec.getLsbD_extractLsb', Nat.zero_add, hi, decide_true, Bool.true_and]
  rw [getLsbD_mask c s i (by omega), if_pos hi]

/-- Masking a masked word changes nothing (R83). -/
theorem mask_mask (s : Word c) : mask c (mask c s) = mask c s := mask_eq_of_emod c (toNat_mask_emod c s)

/-- The native bounds of a unit hold the narrow ones, so an integer of the narrow range is the native reading of its
word. -/
theorem nat_enc_of_narrow {z : Int} (h : minInt c ≤ z ∧ z ≤ maxInt c) : nat c (enc c z) = z := by
  have h2 := two_pow_N c
  have hp : 0 < 2 ^ (c.N - 1) := Nat.two_pow_pos _
  have hW : c.W.bits = (c.W.bits - 1) + 1 := by have := width_pos c; omega
  have hle : 2 ^ (c.N - 1) ≤ 2 ^ (c.W.bits - 1) := Nat.pow_le_pow_right (by omega) (by have := c.N_le_W; omega)
  have hW2 : 2 ^ c.W.bits = 2 * 2 ^ (c.W.bits - 1) := by
    rw [hW, Nat.pow_succ]
    simp [Nat.mul_comm]
  unfold minInt maxInt at h
  unfold nat enc
  by_cases hs : c.signed = true
  · simp only [hs, if_true] at h ⊢
    rw [BitVec.toInt_ofInt]
    exact Int.bmod_eq_of_le (by omega) (by omega)
  · simp only [hs, Bool.false_eq_true, if_false] at h ⊢
    rw [BitVec.toNat_ofInt]
    have hz : z % ((2 ^ c.W.bits : Nat) : Int) = z := Int.emod_eq_of_lt (by omega) (by omega)
    rw [hz]
    omega

/-- A masked word is the storage word of its narrow value (R11). -/
theorem mask_eq_enc_value (s : Word c) : mask c s = enc c (value c s) :=
  nat_injective c (by rw [nat_enc_of_narrow c (value_bounds c s)]; rfl)

/-- The narrow value of a masked word is that of the word (R83). -/
theorem value_mask (s : Word c) : value c (mask c s) = value c s := by
  unfold value
  rw [mask_mask]

/-- A word is canonical exactly when its native reading is in the narrow range (R69, R83). -/
theorem mask_eq_self_iff (s : Word c) : mask c s = s ↔ minInt c ≤ nat c s ∧ nat c s ≤ maxInt c := by
  constructor
  · intro h
    have := value_bounds c s
    unfold value at this
    rwa [h] at this
  · intro h
    apply nat_injective c
    exact narrow_unique c (value_bounds c s) h ((value_emod c s).trans (nat_emod c s).symm)

/-- A bitwise operator on masked words gives a masked word. -/
theorem mask_and_canonical (s t : Word c) : mask c (mask c s &&& mask c t) = mask c s &&& mask c t := by
  apply BitVec.eq_of_getLsbD_eq
  intro i hi
  have h1 : c.N - 1 < c.W.bits := by have := c.one_le_N; have := c.N_le_W; omega
  simp only [getLsbD_mask c _ i hi, getLsbD_mask c _ _ h1, BitVec.getLsbD_and]
  have h2 : c.N - 1 < c.N := by have := c.one_le_N; omega
  by_cases h : i < c.N <;> cases c.signed <;> simp [h, h2]

theorem mask_or_canonical (s t : Word c) : mask c (mask c s ||| mask c t) = mask c s ||| mask c t := by
  apply BitVec.eq_of_getLsbD_eq
  intro i hi
  have h1 : c.N - 1 < c.W.bits := by have := c.one_le_N; have := c.N_le_W; omega
  simp only [getLsbD_mask c _ i hi, getLsbD_mask c _ _ h1, BitVec.getLsbD_or]
  have h2 : c.N - 1 < c.N := by have := c.one_le_N; omega
  by_cases h : i < c.N <;> cases c.signed <;> simp [h, h2]

theorem mask_xor_canonical (s t : Word c) : mask c (mask c s ^^^ mask c t) = mask c s ^^^ mask c t := by
  apply BitVec.eq_of_getLsbD_eq
  intro i hi
  have h1 : c.N - 1 < c.W.bits := by have := c.one_le_N; have := c.N_le_W; omega
  simp only [getLsbD_mask c _ i hi, getLsbD_mask c _ _ h1, BitVec.getLsbD_xor]
  have h2 : c.N - 1 < c.N := by have := c.one_le_N; omega
  by_cases h : i < c.N <;> cases c.signed <;> simp [h, h2]

theorem minInt_le_maxInt : minInt c ≤ maxInt c := by
  have := wrap_bounds c 0
  omega

/-- The narrow range holds `2^N` integers (R9). -/
theorem maxInt_sub_minInt : maxInt c - minInt c + 1 = ((2 ^ c.N : Nat) : Int) := by
  have h2 := two_pow_N c
  unfold minInt maxInt
  cases c.signed <;> simp only [if_true, if_false, Bool.false_eq_true] <;> omega

/-- The storage word of an integer in the narrow range is canonical. -/
theorem mask_enc_of_narrow {z : Int} (h : minInt c ≤ z ∧ z ≤ maxInt c) : mask c (enc c z) = enc c z := by
  rw [mask_eq_self_iff, nat_enc_of_narrow c h]
  exact h

/-- The narrow range test as a proposition. -/
theorem fitsNarrow_iff (z : Int) : fitsNarrow c z = true ↔ minInt c ≤ z ∧ z ≤ maxInt c := by
  simp [fitsNarrow]

/-- The range test as a proposition (R69). -/
theorem inRange_iff (d : Word c) : inRange c d = true ↔ minInt c ≤ nat c d ∧ nat c d ≤ maxInt c :=
  fitsNarrow_iff c _

end Sys2Proof.Machine
end

