-- ==== Sys2Proof/Laws/State.lean ====
section
/-! SUPPORT. The small lemmas of the named operations on the state: one per field per operation, and the read after a
write. -/

namespace Sys2Proof.Machine

variable (s : State) (r : Reg) (v : Word s.cfg) (f : Status) (C : Cause)

@[simp] theorem writeReg_cfg : (s.writeReg r v).cfg = s.cfg := rfl
@[simp] theorem writeReg_status : (s.writeReg r v).status = s.status := rfl
@[simp] theorem writeReg_fcmd : (s.writeReg r v).fcmd = s.fcmd := rfl
@[simp] theorem writeReg_dout : (s.writeReg r v).dout = s.dout := rfl
@[simp] theorem writeReg_everReset : (s.writeReg r v).everReset = s.everReset := rfl
@[simp] theorem writeReg_cmd : (s.writeReg r v).cmd = s.cmd := rfl
@[simp] theorem writeReg_din : (s.writeReg r v).din = s.din := rfl
@[simp] theorem writeReg_coming : (s.writeReg r v).coming = s.coming := rfl

@[simp] theorem writeDout_cfg : (s.writeDout v).cfg = s.cfg := rfl
@[simp] theorem writeDout_x : (s.writeDout v).x = s.x := rfl
@[simp] theorem writeDout_status : (s.writeDout v).status = s.status := rfl
@[simp] theorem writeDout_fcmd : (s.writeDout v).fcmd = s.fcmd := rfl
@[simp] theorem writeDout_dout : (s.writeDout v).dout = v := rfl
@[simp] theorem writeDout_everReset : (s.writeDout v).everReset = s.everReset := rfl
@[simp] theorem writeDout_coming : (s.writeDout v).coming = s.coming := rfl

@[simp] theorem writeStatus_cfg : (s.writeStatus f).cfg = s.cfg := rfl
@[simp] theorem writeStatus_x : (s.writeStatus f).x = s.x := rfl
@[simp] theorem writeStatus_status : (s.writeStatus f).status = f := rfl
@[simp] theorem writeStatus_fcmd : (s.writeStatus f).fcmd = s.fcmd := rfl
@[simp] theorem writeStatus_dout : (s.writeStatus f).dout = s.dout := rfl
@[simp] theorem writeStatus_everReset : (s.writeStatus f).everReset = s.everReset := rfl
@[simp] theorem writeStatus_coming : (s.writeStatus f).coming = s.coming := rfl

@[simp] theorem takeFatal_cfg : (s.takeFatal C).cfg = s.cfg := rfl
@[simp] theorem takeFatal_x : (s.takeFatal C).x = s.x := rfl
@[simp] theorem takeFatal_status : (s.takeFatal C).status = { s.status with halt := true, cause := C } := rfl
@[simp] theorem takeFatal_fcmd : (s.takeFatal C).fcmd = s.cmd := rfl
@[simp] theorem takeFatal_dout : (s.takeFatal C).dout = s.dout := rfl
@[simp] theorem takeFatal_everReset : (s.takeFatal C).everReset = s.everReset := rfl
@[simp] theorem takeFatal_coming : (s.takeFatal C).coming = s.coming := rfl

/-- A register that was written reads as the word written. -/
theorem readReg_writeReg_self : (s.writeReg r v).readReg r = v := by
  simp [State.readReg, State.writeReg, Vector.get_eq_getElem]

/-- A register other than the one written reads as before. -/
theorem readReg_writeReg_other {r' : Reg} (h : r' ≠ r) : (s.writeReg r v).readReg r' = s.readReg r' := by
  have hne : r.val ≠ r'.val := fun he => h (Fin.ext he.symm)
  simp [State.readReg, State.writeReg, Vector.get_eq_getElem, Vector.getElem_set_ne, hne]

/-- Writing back the word a register holds changes nothing. -/
theorem writeReg_readReg : s.writeReg r (s.readReg r) = s := by
  simp [State.readReg, State.writeReg, Vector.get_eq_getElem]

variable (e : Edge s.cfg.W.bits) (rest : List (Edge s.cfg.W.bits))

@[simp] theorem sample_cfg : (s.sample e rest).cfg = s.cfg := rfl
@[simp] theorem sample_x : (s.sample e rest).x = s.x := rfl
@[simp] theorem sample_status : (s.sample e rest).status = s.status := rfl
@[simp] theorem sample_fcmd : (s.sample e rest).fcmd = s.fcmd := rfl
@[simp] theorem sample_dout : (s.sample e rest).dout = s.dout := rfl
@[simp] theorem sample_everReset : (s.sample e rest).everReset = s.everReset := rfl
@[simp] theorem sample_cmd : (s.sample e rest).cmd = e.cmd := rfl
theorem sample_din : (s.sample e rest).din = e.din := rfl
@[simp] theorem sample_coming : (s.sample e rest).coming = rest := rfl

variable (fresh : Vector (Word s.cfg) 16)

@[simp] theorem resetUnit_cfg : (s.resetUnit fresh).cfg = s.cfg := rfl
@[simp] theorem resetUnit_x : (s.resetUnit fresh).x = fresh := rfl
@[simp] theorem resetUnit_status : (s.resetUnit fresh).status = Status.reset := rfl
@[simp] theorem resetUnit_fcmd : (s.resetUnit fresh).fcmd = 0 := rfl
@[simp] theorem resetUnit_dout : (s.resetUnit fresh).dout = 0 := rfl
@[simp] theorem resetUnit_everReset : (s.resetUnit fresh).everReset = true := rfl
@[simp] theorem resetUnit_coming : (s.resetUnit fresh).coming = s.coming := rfl

@[simp] theorem sample_resetUnit_cfg : ((s.sample e rest).resetUnit e.fresh).cfg = s.cfg := rfl
@[simp] theorem sample_resetUnit_status : ((s.sample e rest).resetUnit e.fresh).status = Status.reset := rfl
@[simp] theorem sample_resetUnit_fcmd : ((s.sample e rest).resetUnit e.fresh).fcmd = 0 := rfl
@[simp] theorem sample_resetUnit_everReset : ((s.sample e rest).resetUnit e.fresh).everReset = true := rfl
@[simp] theorem sample_resetUnit_coming : ((s.sample e rest).resetUnit e.fresh).coming = rest := rfl

end Sys2Proof.Machine
end

