-- ==== Sys2Proof/Laws/Exec.lean ====
section
/-! SUPPORT. What an accepted command can do, said once: it takes the fatal fault of its table row, or it makes the
one write of its kind. Every frame and every invariant follows from `exec_cases`. -/

namespace Sys2Proof.Machine

theorem overflows_iff (c : Config) (r : Int) :
    overflows c r = true ↔ c.chk = true ∧ (r < minInt c ∨ maxInt c < r) := by
  simp only [overflows, fitsNarrow, Bool.and_eq_true, Bool.not_eq_true', Bool.and_eq_false_iff,
    decide_eq_false_iff_not, Int.not_le]

theorem shiftOutOfRange_iff (c : Config) (k : Imm8) : shiftOutOfRange c k = true ↔ c.W.bits ≤ k.toNat := by
  simp [shiftOutOfRange]

/-- At the full width every word is canonical (R81). -/
theorem mask_full_width (c : Config) (h : c.N = c.W.bits) (s : Word c) : mask c s = s := by
  apply BitVec.eq_of_getLsbD_eq
  intro i hi
  rw [getLsbD_mask c s i hi, if_pos (by omega)]

section Commands

variable (rd rs1 rs2 : Reg) (k : Imm8) (s : State)

theorem execNew_inRange (h : minInt s.cfg ≤ nat s.cfg s.din ∧ nat s.cfg s.din ≤ maxInt s.cfg) :
    exec (.new rd) s = .next (s.writeReg rd s.din) := by
  show execNew rd s = _
  rw [execNew, if_pos ((inRange_iff _ _).mpr h)]
  rfl

theorem execNew_outOfRange (h : ¬(minInt s.cfg ≤ nat s.cfg s.din ∧ nat s.cfg s.din ≤ maxInt s.cfg)) :
    exec (.new rd) s = .next (s.takeFatal .range) := by
  show execNew rd s = _
  rw [execNew, if_neg (fun hr => h ((inRange_iff _ _).mp hr))]
  rfl

theorem execTryNew_inRange (h : minInt s.cfg ≤ nat s.cfg s.din ∧ nat s.cfg s.din ≤ maxInt s.cfg) :
    exec (.tryNew rd) s = .next ((s.writeReg rd s.din).writeStatus { s.status with rerr := false }) := by
  show execTryNew rd s = _
  rw [execTryNew, if_pos ((inRange_iff _ _).mpr h)]
  rfl

theorem execTryNew_outOfRange (h : ¬(minInt s.cfg ≤ nat s.cfg s.din ∧ nat s.cfg s.din ≤ maxInt s.cfg)) :
    exec (.tryNew rd) s = .next (s.writeStatus { s.status with rerr := true }) := by
  show execTryNew rd s = _
  rw [execTryNew, if_neg (fun hr => h ((inRange_iff _ _).mp hr))]
  rfl

theorem execAdd_overflow
    (h : s.cfg.chk = true ∧ (s.valueOf rs1 + s.valueOf rs2 < minInt s.cfg ∨ maxInt s.cfg < s.valueOf rs1 + s.valueOf rs2)) :
    exec (.add rd rs1 rs2) s = .next (s.takeFatal .overflow) := by
  show execAdd rd rs1 rs2 s = _
  rw [execAdd, if_pos ((overflows_iff _ _).mpr h)]
  rfl

theorem execAdd_completes
    (h : ¬(s.cfg.chk = true ∧ (s.valueOf rs1 + s.valueOf rs2 < minInt s.cfg ∨ maxInt s.cfg < s.valueOf rs1 + s.valueOf rs2))) :
    exec (.add rd rs1 rs2) s = .next (s.writeReg rd (wrappingAdd s.cfg (s.readReg rs1) (s.readReg rs2))) := by
  show execAdd rd rs1 rs2 s = _
  rw [execAdd, if_neg (fun ho => h ((overflows_iff _ _).mp ho))]
  rfl

theorem execSub_overflow
    (h : s.cfg.chk = true ∧ (s.valueOf rs1 - s.valueOf rs2 < minInt s.cfg ∨ maxInt s.cfg < s.valueOf rs1 - s.valueOf rs2)) :
    exec (.sub rd rs1 rs2) s = .next (s.takeFatal .overflow) := by
  show execSub rd rs1 rs2 s = _
  rw [execSub, if_pos ((overflows_iff _ _).mpr h)]
  rfl

theorem execSub_completes
    (h : ¬(s.cfg.chk = true ∧ (s.valueOf rs1 - s.valueOf rs2 < minInt s.cfg ∨ maxInt s.cfg < s.valueOf rs1 - s.valueOf rs2))) :
    exec (.sub rd rs1 rs2) s = .next (s.writeReg rd (wrappingSub s.cfg (s.readReg rs1) (s.readReg rs2))) := by
  show execSub rd rs1 rs2 s = _
  rw [execSub, if_neg (fun ho => h ((overflows_iff _ _).mp ho))]
  rfl

theorem execShl_faults (h : s.cfg.W.bits ≤ k.toNat) : exec (.shl rd rs1 k) s = .next (s.takeFatal .shift) := by
  show execShl rd rs1 k s = _
  rw [execShl, if_pos ((shiftOutOfRange_iff _ _).mpr h)]
  rfl

theorem execShl_completes (h : k.toNat < s.cfg.W.bits) : exec (.shl rd rs1 k) s =
    .next (s.writeReg rd (mask s.cfg (shiftLeftWord s.cfg (s.readMasked rs1) k.toNat))) := by
  show execShl rd rs1 k s = _
  rw [execShl, if_neg (fun ho => absurd ((shiftOutOfRange_iff _ _).mp ho) (by omega))]
  rfl

theorem execShr_faults (h : s.cfg.W.bits ≤ k.toNat) : exec (.shr rd rs1 k) s = .next (s.takeFatal .shift) := by
  show execShr rd rs1 k s = _
  rw [execShr, if_pos ((shiftOutOfRange_iff _ _).mpr h)]
  rfl

theorem execShr_completes (h : k.toNat < s.cfg.W.bits) : exec (.shr rd rs1 k) s =
    .next (s.writeReg rd (mask s.cfg (shiftRightWord s.cfg (s.readMasked rs1) k.toNat))) := by
  show execShr rd rs1 k s = _
  rw [execShr, if_neg (fun ho => absurd ((shiftOutOfRange_iff _ _).mp ho) (by omega))]
  rfl

end Commands

/-- The write a command makes when it completes. -/
inductive Completes (i : Instr) (s : State) : State → Prop where
  /-- A register is written and nothing else; the word is canonical but for `RAWNEW` and `COPY` (R26). -/
  | register (d : Reg) (v : Word s.cfg) (h : i.dest = some d) (hn : i ≠ .tryNew d)
    (hv : mask s.cfg v = v ∨ (i = .rawNew d ∧ v = s.din) ∨ ∃ a, i = .copy d a ∧ v = s.readReg a) :
    Completes i s (s.writeReg d v)
  /-- `TRYNEW` succeeds: the register and `RERR`. -/
  | accepted (d : Reg) (h : i = .tryNew d) (hr : minInt s.cfg ≤ nat s.cfg s.din ∧ nat s.cfg s.din ≤ maxInt s.cfg) :
    Completes i s ((s.writeReg d s.din).writeStatus { s.status with rerr := false })
  /-- `TRYNEW` answers the empty result: `RERR` alone. -/
  | rejected (d : Reg) (h : i = .tryNew d) (hr : ¬(minInt s.cfg ≤ nat s.cfg s.din ∧ nat s.cfg s.din ≤ maxInt s.cfg)) :
    Completes i s (s.writeStatus { s.status with rerr := true })
  /-- `CMP` writes the three comparison flags. -/
  | compared (a b : Reg) (h : i = .cmp a b) :
    Completes i s (s.writeStatus (s.status.compare s.cfg (s.readReg a) (s.readReg b)))
  /-- `GET` writes `DOUT`. -/
  | delivered (a : Reg) (h : i = .get a) : Completes i s (s.writeDout (s.readMasked a))

/-- A command that writes a canonical word into its one register. -/
theorem completes_canonical {i : Instr} {s : State} (d : Reg) (v : Word s.cfg) (h : i.dest = some d)
    (hn : i ≠ .tryNew d) (hv : mask s.cfg v = v) : Completes i s (s.writeReg d v) :=
  .register d v h hn (.inl hv)

/-- What an accepted command can do: the fault of its table row, or one write of its kind. -/
theorem exec_cases (i : Instr) (s : State) :
    (∃ C, fatalCause i s = some C ∧ exec i s = .next (s.takeFatal C)) ∨
    (fatalCause i s = none ∧ ∃ t, exec i s = .next t ∧ Completes i s t) := by
  cases i with
  | new d =>
    by_cases h : minInt s.cfg ≤ nat s.cfg s.din ∧ nat s.cfg s.din ≤ maxInt s.cfg
    · exact .inr ⟨if_pos h, _, execNew_inRange d s h,
        completes_canonical d _ rfl (by simp) ((mask_eq_self_iff _ _).mpr h)⟩
    · exact .inl ⟨_, if_neg h, execNew_outOfRange d s h⟩
  | tryNew d =>
    by_cases h : minInt s.cfg ≤ nat s.cfg s.din ∧ nat s.cfg s.din ≤ maxInt s.cfg
    · exact .inr ⟨rfl, _, execTryNew_inRange d s h, .accepted d rfl h⟩
    · exact .inr ⟨rfl, _, execTryNew_outOfRange d s h, .rejected d rfl h⟩
  | add d a b =>
    by_cases h : s.cfg.chk = true ∧
      (s.valueOf a + s.valueOf b < minInt s.cfg ∨ maxInt s.cfg < s.valueOf a + s.valueOf b)
    · exact .inl ⟨_, if_pos h, execAdd_overflow d a b s h⟩
    · exact .inr ⟨if_neg h, _, execAdd_completes d a b s h,
        completes_canonical d _ rfl (by simp) (mask_mask _ _)⟩
  | sub d a b =>
    by_cases h : s.cfg.chk = true ∧
      (s.valueOf a - s.valueOf b < minInt s.cfg ∨ maxInt s.cfg < s.valueOf a - s.valueOf b)
    · exact .inl ⟨_, if_pos h, execSub_overflow d a b s h⟩
    · exact .inr ⟨if_neg h, _, execSub_completes d a b s h,
        completes_canonical d _ rfl (by simp) (mask_mask _ _)⟩
  | shl d a k =>
    by_cases h : s.cfg.W.bits ≤ k.toNat
    · exact .inl ⟨_, if_pos h, execShl_faults d a k s h⟩
    · exact .inr ⟨if_neg h, _, execShl_completes d a k s (by omega),
        completes_canonical d _ rfl (by simp) (mask_mask _ _)⟩
  | shr d a k =>
    by_cases h : s.cfg.W.bits ≤ k.toNat
    · exact .inl ⟨_, if_pos h, execShr_faults d a k s h⟩
    · exact .inr ⟨if_neg h, _, execShr_completes d a k s (by omega),
        completes_canonical d _ rfl (by simp) (mask_mask _ _)⟩
  | cmp a b => exact .inr ⟨rfl, _, rfl, .compared a b rfl⟩
  | get a => exact .inr ⟨rfl, _, rfl, .delivered a rfl⟩
  | rawNew d => exact .inr ⟨rfl, _, rfl, .register d _ rfl (by simp) (.inr (.inl ⟨rfl, rfl⟩))⟩
  | copy d a => exact .inr ⟨rfl, _, rfl, .register d _ rfl (by simp) (.inr (.inr ⟨a, rfl, rfl⟩))⟩
  | ldMin d =>
    exact .inr ⟨rfl, _, rfl, completes_canonical d _ rfl (by simp)
      (mask_enc_of_narrow _ ⟨le_refl _, minInt_le_maxInt _⟩)⟩
  | ldMax d =>
    exact .inr ⟨rfl, _, rfl, completes_canonical d _ rfl (by simp)
      (mask_enc_of_narrow _ ⟨minInt_le_maxInt _, le_refl _⟩)⟩
  | and d a b => exact .inr ⟨rfl, _, rfl, completes_canonical d _ rfl (by simp) (mask_and_canonical _ _ _)⟩
  | or d a b => exact .inr ⟨rfl, _, rfl, completes_canonical d _ rfl (by simp) (mask_or_canonical _ _ _)⟩
  | xor d a b => exact .inr ⟨rfl, _, rfl, completes_canonical d _ rfl (by simp) (mask_xor_canonical _ _ _)⟩
  | tNew d => exact .inr ⟨rfl, _, rfl, completes_canonical d _ rfl (by simp) (mask_mask _ _)⟩
  | mask d a | not d a => exact .inr ⟨rfl, _, rfl, completes_canonical d _ rfl (by simp) (mask_mask _ _)⟩
  | wadd d a b | wsub d a b =>
    exact .inr ⟨rfl, _, rfl, completes_canonical d _ rfl (by simp) (mask_mask _ _)⟩

end Sys2Proof.Machine
end

