-- ==== Sys2Proof/Laws/PerInstr.lean ====
section
/-! SUPPORT. A family of statements made per command: the opcode a command's word carries, and the format whose
unused fields its word leaves zero. -/

namespace Sys2Proof.Laws.OpcodeAndFormat

/-- What R52 and R54 say of each command's word. -/
def Statement (i : Instr) : Prop :=
  match i with
  | .new _ => carries 0x10#8 .D (encode i)
  | .tryNew _ => carries 0x11#8 .D (encode i)
  | .tNew _ => carries 0x12#8 .D (encode i)
  | .rawNew _ => carries 0x13#8 .D (encode i)
  | .ldMin _ => carries 0x14#8 .D (encode i)
  | .ldMax _ => carries 0x15#8 .D (encode i)
  | .copy _ _ => carries 0x16#8 .U (encode i)
  | .mask _ _ => carries 0x17#8 .U (encode i)
  | .add _ _ _ => carries 0x20#8 .R (encode i)
  | .sub _ _ _ => carries 0x21#8 .R (encode i)
  | .wadd _ _ _ => carries 0x22#8 .R (encode i)
  | .wsub _ _ _ => carries 0x23#8 .R (encode i)
  | .and _ _ _ => carries 0x30#8 .R (encode i)
  | .or _ _ _ => carries 0x31#8 .R (encode i)
  | .xor _ _ _ => carries 0x32#8 .R (encode i)
  | .not _ _ => carries 0x33#8 .U (encode i)
  | .shl _ _ _ => carries 0x40#8 .S (encode i)
  | .shr _ _ _ => carries 0x41#8 .S (encode i)
  | .cmp _ _ => carries 0x50#8 .P (encode i)
  | .get _ => carries 0x60#8 .G (encode i)

theorem carriesD (op : BitVec 8) (d : Reg) : carries op .D (packD op d) := by
  simp [carries, packD, Format.zeroFields, fieldIsZero, opField_packWord, rs1Field_packWord, rs2Field_packWord,
    zField_packWord, imm8Field_packWord]

theorem carriesU (op : BitVec 8) (d a : Reg) : carries op .U (packU op d a) := by
  simp [carries, packU, Format.zeroFields, fieldIsZero, opField_packWord, rs2Field_packWord,
    zField_packWord, imm8Field_packWord]

theorem carriesR (op : BitVec 8) (d a b : Reg) : carries op .R (packR op d a b) := by
  simp [carries, packR, Format.zeroFields, fieldIsZero, opField_packWord, zField_packWord, imm8Field_packWord]

theorem carriesS (op : BitVec 8) (d a : Reg) (k : Imm8) : carries op .S (packS op d a k) := by
  simp [carries, packS, Format.zeroFields, fieldIsZero, opField_packWord, rs2Field_packWord, zField_packWord]

theorem carriesP (op : BitVec 8) (a b : Reg) : carries op .P (packP op a b) := by
  simp [carries, packP, Format.zeroFields, fieldIsZero, opField_packWord, rdField_packWord, zField_packWord,
    imm8Field_packWord]

theorem carriesG (op : BitVec 8) (a : Reg) : carries op .G (packG op a) := by
  simp [carries, packG, Format.zeroFields, fieldIsZero, opField_packWord, rdField_packWord, rs2Field_packWord,
    zField_packWord, imm8Field_packWord]

theorem new (d : Reg) : Statement (.new d) := carriesD _ d
theorem tryNew (d : Reg) : Statement (.tryNew d) := carriesD _ d
theorem tNew (d : Reg) : Statement (.tNew d) := carriesD _ d
theorem rawNew (d : Reg) : Statement (.rawNew d) := carriesD _ d
theorem ldMin (d : Reg) : Statement (.ldMin d) := carriesD _ d
theorem ldMax (d : Reg) : Statement (.ldMax d) := carriesD _ d
theorem copy (d a : Reg) : Statement (.copy d a) := carriesU _ d a
theorem mask (d a : Reg) : Statement (.mask d a) := carriesU _ d a
theorem add (d a b : Reg) : Statement (.add d a b) := carriesR _ d a b
theorem sub (d a b : Reg) : Statement (.sub d a b) := carriesR _ d a b
theorem wadd (d a b : Reg) : Statement (.wadd d a b) := carriesR _ d a b
theorem wsub (d a b : Reg) : Statement (.wsub d a b) := carriesR _ d a b
theorem and (d a b : Reg) : Statement (.and d a b) := carriesR _ d a b
theorem or (d a b : Reg) : Statement (.or d a b) := carriesR _ d a b
theorem xor (d a b : Reg) : Statement (.xor d a b) := carriesR _ d a b
theorem not (d a : Reg) : Statement (.not d a) := carriesU _ d a
theorem shl (d a : Reg) (k : Imm8) : Statement (.shl d a k) := carriesS _ d a k
theorem shr (d a : Reg) (k : Imm8) : Statement (.shr d a k) := carriesS _ d a k
theorem cmp (a b : Reg) : Statement (.cmp a b) := carriesP _ a b
theorem get (a : Reg) : Statement (.get a) := carriesG _ a

end Sys2Proof.Laws.OpcodeAndFormat
end

