-- ==== Sys2Proof/Laws/Step.lean ====
section
/-! SUPPORT. What one step can do, said once: the equations of `step` edge by edge, and the cases of a next state. -/

namespace Sys2Proof.Machine

variable (s : State) (e : Edge s.cfg.W.bits) (rest : List (Edge s.cfg.W.bits))

theorem step_quiet (h : s.coming = []) (hr : s.everReset = true) : step s = .next s := by
  simp [step, h, quietEdge, hr]

theorem step_reset (h : s.coming = e :: rest) (hr : e.rst = true) :
    step s = .next ((s.sample e rest).resetUnit e.fresh) := by
  simp [step, h, stepEdge, hr]

theorem step_ignored (h : s.coming = e :: rest) (hr : e.rst = false) (hs : s.everReset = true)
    (hn : e.cmdValid = false ∨ s.status.halt = true) : step s = .next (s.sample e rest) := by
  have hacc : s.accepts e = false := by
    rcases hn with hn | hn <;> simp [State.accepts, State.cmdReady, State.halted, hr, hn]
  simp [step, h, stepEdge, hr, hs, hacc]

theorem step_accepts (h : s.coming = e :: rest) (hr : e.rst = false) (hs : s.everReset = true)
    (hv : e.cmdValid = true) (hh : s.status.halt = false) :
    step s = acceptWord e.cmd (s.sample e rest) := by
  have hacc : s.accepts e = true := by
    simp [State.accepts, State.cmdReady, State.halted, hr, hv, hh]
  simp [step, h, stepEdge, hr, hs, hacc]

theorem acceptWord_command {w : CmdWord} {i : Instr} (h : decode w = .ok i) : acceptWord w s = exec i s := by
  simp [acceptWord, h]

theorem acceptWord_illegal {w : CmdWord} (h : ∀ i, decode w ≠ .ok i) :
    acceptWord w s = .next (s.takeFatal .illegal) := by
  unfold acceptWord
  split
  · rename_i i hi
    exact absurd hi (h i)
  · rfl

/-- How a step of a unit that has been reset, or whose next edge is a reset edge, comes to its next state. -/
inductive StepsTo (s : State) : State → Prop where
  /-- The host presents nothing more. -/
  | quiet (h : s.coming = []) (hr : s.everReset = true) : StepsTo s s
  /-- A reset edge. -/
  | reset (e : Edge s.cfg.W.bits) (rest : List (Edge s.cfg.W.bits)) (h : s.coming = e :: rest) (hr : e.rst = true) :
    StepsTo s ((s.sample e rest).resetUnit e.fresh)
  /-- An edge at which nothing is accepted. -/
  | ignored (e : Edge s.cfg.W.bits) (rest : List (Edge s.cfg.W.bits)) (h : s.coming = e :: rest)
    (hr : e.rst = false) (hs : s.everReset = true) (hn : e.cmdValid = false ∨ s.status.halt = true) :
    StepsTo s (s.sample e rest)
  /-- An illegal word is accepted. -/
  | illegal (e : Edge s.cfg.W.bits) (rest : List (Edge s.cfg.W.bits)) (h : s.coming = e :: rest)
    (hr : e.rst = false) (hs : s.everReset = true) (hv : e.cmdValid = true) (hh : s.status.halt = false)
    (hd : ∀ i, decode e.cmd ≠ .ok i) : StepsTo s ((s.sample e rest).takeFatal .illegal)
  /-- A command is accepted and faults. -/
  | faulted (e : Edge s.cfg.W.bits) (rest : List (Edge s.cfg.W.bits)) (h : s.coming = e :: rest)
    (hr : e.rst = false) (hs : s.everReset = true) (hv : e.cmdValid = true) (hh : s.status.halt = false)
    (i : Instr) (hd : decode e.cmd = .ok i) (C : Cause) (hc : fatalCause i (s.sample e rest) = some C) :
    StepsTo s ((s.sample e rest).takeFatal C)
  /-- A command is accepted and completes. -/
  | completed (e : Edge s.cfg.W.bits) (rest : List (Edge s.cfg.W.bits)) (h : s.coming = e :: rest)
    (hr : e.rst = false) (hs : s.everReset = true) (hv : e.cmdValid = true) (hh : s.status.halt = false)
    (i : Instr) (hd : decode e.cmd = .ok i) (t : State) (hi : exec i (s.sample e rest) = .next t)
    (ht : Completes i (s.sample e rest) t) : StepsTo s t

/-- What a step can do: it is refused before the first reset, or it comes to a next state in one of six ways. -/
theorem step_cases (s : State) :
    (s.everReset = false ∧ (∀ e rest, s.coming = e :: rest → e.rst = false) ∧ step s = .refused .beforeFirstReset) ∨
    ∃ t, step s = .next t ∧ StepsTo s t := by
  cases h : s.coming with
  | nil =>
    cases hs : s.everReset with
    | false => exact .inl ⟨rfl, by simp, by simp [step, h, quietEdge, hs]⟩
    | true => exact .inr ⟨s, step_quiet s h hs, .quiet h hs⟩
  | cons e rest =>
    cases hr : e.rst with
    | true => exact .inr ⟨_, step_reset s e rest h hr, .reset e rest h hr⟩
    | false =>
      cases hs : s.everReset with
      | false =>
        refine .inl ⟨rfl, ?_, by simp [step, h, stepEdge, hr, hs]⟩
        intro e' rest' he
        cases he
        exact hr
      | true =>
        by_cases hn : e.cmdValid = false ∨ s.status.halt = true
        · exact .inr ⟨_, step_ignored s e rest h hr hs hn, .ignored e rest h hr hs hn⟩
        · rw [not_or, Bool.not_eq_false, Bool.not_eq_true] at hn
          have hst := step_accepts s e rest h hr hs hn.1 hn.2
          cases hd : decode e.cmd with
          | error why =>
            have hill : ∀ i, decode e.cmd ≠ .ok i := fun i hi => by rw [hd] at hi; cases hi
            exact .inr ⟨_, hst.trans (acceptWord_illegal _ hill), .illegal e rest h hr hs hn.1 hn.2 hill⟩
          | ok i =>
            have hex := hst.trans (acceptWord_command (s.sample e rest) hd)
            rcases exec_cases i (s.sample e rest) with ⟨C, hC, hf⟩ | ⟨-, t, ht, hcomp⟩
            · exact .inr ⟨_, hex.trans hf, .faulted e rest h hr hs hn.1 hn.2 i hd C hC⟩
            · exact .inr ⟨t, hex.trans ht, .completed e rest h hr hs hn.1 hn.2 i hd t ht hcomp⟩

/-- The cases of a next state. -/
theorem stepsTo_of_step {s t : State} (h : step s = .next t) : StepsTo s t := by
  rcases step_cases s with ⟨-, -, hr⟩ | ⟨t', ht, hst⟩
  · rw [hr] at h
    cases h
  · rw [ht] at h
    cases h
    exact hst

/-- A run of one step more goes through the next state, for any machine. -/
theorem run_succ_of_step (M : Host.Core) (k : Nat) (s t : M.State) (h : M.step s = .next t) :
    M.run (k + 1) s = M.run k t := by
  rw [Host.Core.run, h]

/-- A run of one step more goes through the next state. -/
theorem run_succ (k : Nat) {s t : State} (h : step s = .next t) :
    Sys2Proof.core.run (k + 1) s = Sys2Proof.core.run k t :=
  run_succ_of_step Sys2Proof.core k s t h

end Sys2Proof.Machine
end

