-- ==== Sys2Proof/Laws/WellFormed.lean ====
section
/-! SUPPORT. The instantiation check: what it accepts, and the default storage width (R5). -/

namespace Sys2Proof

@[simp] theorem Width.ofBits?_bits (W : Width) : Width.ofBits? W.bits = some W := by cases W <;> rfl

/-- A number of bits is a native width exactly when it is the number of bits of one. -/
theorem Width.ofBits?_eq_some_iff (n : Nat) (W : Width) : Width.ofBits? n = some W ↔ W.bits = n := by
  constructor
  · intro h
    unfold Width.ofBits? at h
    split at h <;> cases h <;> rfl
  · rintro rfl
    exact Width.ofBits?_bits W

/-- `Wmin(N)` holds N bits, for every N a unit can have. -/
theorem Width.le_least (N : Nat) (h : N ≤ 128) : N ≤ (Width.least N).bits := by
  unfold Width.least
  split_ifs <;> simp only [Width.bits] <;> omega

/-- No native width of at least N bits is smaller than `Wmin(N)`. -/
theorem Width.least_le (N : Nat) (W : Width) (h : N ≤ W.bits) : (Width.least N).bits ≤ W.bits := by
  unfold Width.least
  cases W <;> simp only [Width.bits] at h ⊢ <;> split_ifs <;> first | omega | simp

/-- The check accepts exactly the well-formed parameters. -/
theorem Params.toConfig?_isSome (p : Params) : p.toConfig?.isSome = p.wellFormed := by
  unfold Params.toConfig? Params.wellFormed Params.widthIsNative Params.isNonempty Params.fitsStorage
  cases h : Width.ofBits? p.storageBits with
  | none => rfl
  | some W =>
    rw [Width.ofBits?_eq_some_iff] at h
    rw [← h]
    by_cases h1 : 1 ≤ p.N <;> by_cases h2 : p.N ≤ W.bits <;> simp [h1, h2]

/-- A unit made from N alone exists for every N from 1 to 128, and its storage width is `Wmin(N)`. -/
theorem Config.ofBits?_eq (N : Nat) (signed chk : Bool) (h1 : 1 ≤ N) (h2 : N ≤ 128) :
    Config.ofBits? N signed chk = some ⟨N, Width.least N, signed, chk, h1, Width.le_least N h2⟩ := by
  simp [Config.ofBits?, Params.toConfig?, Params.storageBits, h1, Width.le_least N h2]

end Sys2Proof
end

