-- ==== Sys2Proof/Tests/Slice0.lean ====
section
/-! SUPPORT. Tests, each about one step, and the witnesses that the hypotheses of the statements can be met. Every
expected value is copied from 95_test_vectors.md (its table is named) or from the rule named; the words are written
field by field from R51 to R54. -/

namespace Sys2Proof.Tests

open Sys2Proof Sys2Proof.Machine

-- Instantiations named by 95_test_vectors.md

def u1 : Config := ⟨1, .w8, false, true, by decide, by decide⟩
def i1 : Config := ⟨1, .w8, true, true, by decide, by decide⟩
def u8 : Config := ⟨8, .w8, false, true, by decide, by decide⟩
def i8 : Config := ⟨8, .w8, true, true, by decide, by decide⟩
def u12 : Config := ⟨12, .w16, false, true, by decide, by decide⟩
def i33 : Config := ⟨33, .w64, true, true, by decide, by decide⟩
def u127 : Config := ⟨127, .w128, false, false, by decide, by decide⟩
def i127 : Config := ⟨127, .w128, true, true, by decide, by decide⟩
def u5 : Config := Config.u5 true
def i7 : Config := Config.i7 true
def i7Wrapping : Config := Config.i7 false

/-- A unit just reset with `x1`, `x2` and the port `din` given, every other register zero. -/
def unitWith (c : Config) (x1 x2 din : Nat) : State :=
  { State.resetOf c (((Vector.replicate 16 (BitVec.ofNat _ 0)).set 1 (BitVec.ofNat _ x1)).set 2 (BitVec.ofNat _ x2))
    with din := BitVec.ofNat _ din }

/-- The same unit halted by an illegal word, with one edge to come. -/
def haltedUnit (c : Config) (e : Edge c.W.bits) : State :=
  { State.resetOf c (Vector.replicate 16 0) with
      status := { Status.reset with halt := true, cause := .illegal }, fcmd := 0xFFFFFFFF, coming := [e] }

/-- One step of a unit to which a command word is presented. -/
def present (s : State) (w : CmdWord) : Result := step (s.presenting w s.din)

/-- A next state with a property. -/
def gives (o : Result) (p : State → Bool) : Bool :=
  match o with
  | .next t => p t
  | .fault _ => false
  | .refused _ => false

/-- The word of a register, as a number. -/
def reg (s : State) (r : Reg) : Nat := (s.readReg r).toNat

/-- The word on the `status` port, as a number. -/
def statusOf (s : State) : Nat := s.statusPort.toNat

/-- A word is rejected by the decoder. -/
def rejected (w : CmdWord) : Bool :=
  match decode w with
  | .ok _ => false
  | .error _ => true

-- Well-formedness: R4, R5

theorem test_wf_width_must_be_native : Params.widthIsNative ⟨5, some 24, false, true⟩ = false := by decide
theorem test_wf_zero_bits_refused : Params.isNonempty ⟨0, some 8, false, true⟩ = false := by decide
theorem test_wf_narrow_must_fit : Params.fitsStorage ⟨9, some 8, false, true⟩ = false := by decide
theorem test_wf_illegal_params_make_no_unit :
    Params.toConfig? ⟨5, some 24, false, true⟩ = none ∧ Params.toConfig? ⟨0, some 8, false, true⟩ = none ∧
    Params.toConfig? ⟨9, some 8, false, true⟩ = none ∧ Params.wellFormed ⟨129, some 128, true, true⟩ = false := by decide
theorem test_wf_legal_params_make_a_unit :
    Params.toConfig? ⟨5, some 8, false, true⟩ = some u5 ∧ Params.wellFormed ⟨128, some 128, true, false⟩ = true ∧
    Params.wellFormed ⟨8, some 8, false, true⟩ = true := by decide

/-- R5 and V0: without a W, `u5` is stored in 8 bits, `u12` in 16, `i33` in 64, `i127` in 128; 129 bits fit nowhere. -/
theorem test_wf_default_width :
    Config.ofBits? 5 false true = some u5 ∧ Config.ofBits? 12 false true = some u12 ∧
    Config.ofBits? 33 true true = some i33 ∧ Config.ofBits? 127 true true = some i127 ∧
    Config.ofBits? 129 false true = none ∧ Config.ofBits? 0 false true = none := by decide

-- Decoding: one word per command, field by field (op, rd, rs1, rs2, z, imm8)

theorem test_decode_new :
    decode (0b00010000#8 ++ 0b0001#4 ++ 0b0000#4 ++ 0b0000#4 ++ 0b0000#4 ++ 0b00000000#8) = .ok (.new 1) := by rfl
theorem test_decode_tryNew :
    decode (0b00010001#8 ++ 0b0111#4 ++ 0b0000#4 ++ 0b0000#4 ++ 0b0000#4 ++ 0b00000000#8) = .ok (.tryNew 7) := by rfl
theorem test_decode_tNew :
    decode (0b00010010#8 ++ 0b0010#4 ++ 0b0000#4 ++ 0b0000#4 ++ 0b0000#4 ++ 0b00000000#8) = .ok (.tNew 2) := by rfl
theorem test_decode_rawNew :
    decode (0b00010011#8 ++ 0b0100#4 ++ 0b0000#4 ++ 0b0000#4 ++ 0b0000#4 ++ 0b00000000#8) = .ok (.rawNew 4) := by rfl
theorem test_decode_ldMin :
    decode (0b00010100#8 ++ 0b1111#4 ++ 0b0000#4 ++ 0b0000#4 ++ 0b0000#4 ++ 0b00000000#8) = .ok (.ldMin 15) := by rfl
theorem test_decode_ldMax :
    decode (0b00010101#8 ++ 0b0001#4 ++ 0b0000#4 ++ 0b0000#4 ++ 0b0000#4 ++ 0b00000000#8) = .ok (.ldMax 1) := by rfl
theorem test_decode_copy :
    decode (0b00010110#8 ++ 0b0101#4 ++ 0b0100#4 ++ 0b0000#4 ++ 0b0000#4 ++ 0b00000000#8) = .ok (.copy 5 4) := by rfl
theorem test_decode_mask :
    decode (0b00010111#8 ++ 0b1010#4 ++ 0b1011#4 ++ 0b0000#4 ++ 0b0000#4 ++ 0b00000000#8) = .ok (.mask 10 11) := by rfl
theorem test_decode_add :
    decode (0b00100000#8 ++ 0b0011#4 ++ 0b0001#4 ++ 0b0010#4 ++ 0b0000#4 ++ 0b00000000#8) = .ok (.add 3 1 2) := by rfl
theorem test_decode_sub :
    decode (0b00100001#8 ++ 0b0100#4 ++ 0b0010#4 ++ 0b0001#4 ++ 0b0000#4 ++ 0b00000000#8) = .ok (.sub 4 2 1) := by rfl
theorem test_decode_wadd :
    decode (0b00100010#8 ++ 0b0011#4 ++ 0b0001#4 ++ 0b0010#4 ++ 0b0000#4 ++ 0b00000000#8) = .ok (.wadd 3 1 2) := by rfl
theorem test_decode_wsub :
    decode (0b00100011#8 ++ 0b0110#4 ++ 0b0001#4 ++ 0b1100#4 ++ 0b0000#4 ++ 0b00000000#8) = .ok (.wsub 6 1 12) := by rfl
theorem test_decode_and :
    decode (0b00110000#8 ++ 0b0100#4 ++ 0b0010#4 ++ 0b0011#4 ++ 0b0000#4 ++ 0b00000000#8) = .ok (.and 4 2 3) := by rfl
theorem test_decode_or :
    decode (0b00110001#8 ++ 0b0111#4 ++ 0b0110#4 ++ 0b0001#4 ++ 0b0000#4 ++ 0b00000000#8) = .ok (.or 7 6 1) := by rfl
theorem test_decode_xor :
    decode (0b00110010#8 ++ 0b1000#4 ++ 0b0111#4 ++ 0b0001#4 ++ 0b0000#4 ++ 0b00000000#8) = .ok (.xor 8 7 1) := by rfl
theorem test_decode_not :
    decode (0b00110011#8 ++ 0b0101#4 ++ 0b0011#4 ++ 0b0000#4 ++ 0b0000#4 ++ 0b00000000#8) = .ok (.not 5 3) := by rfl
theorem test_decode_shl :
    decode (0b01000000#8 ++ 0b0010#4 ++ 0b0001#4 ++ 0b0000#4 ++ 0b0000#4 ++ 0b11111111#8) = .ok (.shl 2 1 255) := by rfl
theorem test_decode_shr :
    decode (0b01000001#8 ++ 0b0010#4 ++ 0b0001#4 ++ 0b0000#4 ++ 0b0000#4 ++ 0b00000100#8) = .ok (.shr 2 1 4) := by rfl
theorem test_decode_cmp :
    decode (0b01010000#8 ++ 0b0000#4 ++ 0b0001#4 ++ 0b0010#4 ++ 0b0000#4 ++ 0b00000000#8) = .ok (.cmp 1 2) := by rfl
theorem test_decode_get :
    decode (0b01100000#8 ++ 0b0000#4 ++ 0b1111#4 ++ 0b0000#4 ++ 0b0000#4 ++ 0b00000000#8) = .ok (.get 15) := by rfl

/-- V8, the illegal words: a field that must be zero is not. -/
theorem test_decode_illegal_fields :
    [0x10110000#32, 0x10100001#32, 0x10100100#32, 0x20312001#32, 0x33531000#32, 0x40212003#32, 0x50112000#32,
      0x601F0000#32, 0x600F1000#32].all rejected = true := by decide

/-- V8, the illegal words: an opcode that is not in the table. -/
theorem test_decode_illegal_opcodes :
    [0x00000000#32, 0xFFFFFFFF#32, 0x0F000000#32, 0x18000000#32, 0x19000000#32, 0x24000000#32, 0x34000000#32,
      0x42000000#32, 0x51000000#32, 0x61000000#32].all rejected = true := by decide

/-- R41: `ADD x3, x1, x2` (0x20312000) lies in a host's bytes as 00 20 31 20. -/
theorem test_decode_host_bytes :
    decodeBytes [0x00#8, 0x20#8, 0x31#8, 0x20#8, 0x77#8] = some (.ok (.add 3 1 2), [0x77#8]) := by rfl

/-- The host's interface: the first step after reset runs the word placed by `withFetchWord`. -/
theorem test_first_step_after_reset :
    decodeTableWord 32 0x15400000 = some (.ldMax 4) ∧
    gives (step (State.reset.withFetchWord 32 0x15400000)) (fun t => reg t 4 == 0x1F) = true := by decide

-- Construction: V1, V0

theorem test_new_in_range :
    gives (present (unitWith u5 0 0 0x1F) 0x10100000) (fun t => reg t 1 == 0x1F && statusOf t == 0) = true := by decide
theorem test_new_out_of_range :
    gives (present (unitWith u5 7 0 0x20) 0x10100000)
      (fun t => reg t 1 == 7 && statusOf t == 0x0110 && t.fcmd == 0x10100000) = true := by decide
theorem test_tryNew_in_range :
    gives (present (unitWith i7 0 0 0xC0) 0x11100000) (fun t => reg t 1 == 0xC0 && statusOf t == 0) = true := by decide
theorem test_tryNew_out_of_range :
    gives (present (unitWith i7 7 0 0xBF) 0x11100000) (fun t => reg t 1 == 7 && statusOf t == 0x0008) = true := by
  decide
theorem test_tNew_sign_extends :
    gives (present (unitWith i7 0 0 0x40) 0x12100000) (fun t => reg t 1 == 0xC0) = true := by decide
theorem test_tNew_drops_high_bits :
    gives (present (unitWith u12 0 0 0xABCD) 0x12100000) (fun t => reg t 1 == 0x0BCD) = true := by decide
theorem test_rawNew_verbatim :
    gives (present (unitWith u5 0 0 0xE5) 0x13100000) (fun t => reg t 1 == 0xE5) = true := by decide
theorem test_ldMin_wide :
    gives (present (unitWith i33 0 0 0) 0x14500000) (fun t => reg t 5 == 0xFFFFFFFF00000000) = true := by decide
theorem test_ldMin_one_bit :
    gives (present (unitWith i1 0 0 0) 0x14500000) (fun t => reg t 5 == 0xFF) = true := by decide
theorem test_ldMax_signed :
    gives (present (unitWith i7 0 0 0) 0x15500000) (fun t => reg t 5 == 0x3F) = true := by decide
theorem test_ldMax_full_width :
    gives (present (unitWith u8 0 0 0) 0x15500000) (fun t => reg t 5 == 0xFF) = true := by decide
theorem test_copy_keeps_dirt :
    gives (present (unitWith u5 0xE5 0 0) 0x16510000) (fun t => reg t 5 == 0xE5) = true := by decide

-- Masking: V2

theorem test_mask_signed :
    gives (present (unitWith i7 0x40 0 0) 0x17510000) (fun t => reg t 5 == 0xC0) = true := by decide
theorem test_mask_wide :
    gives (present (unitWith i33 0x1234567F00000001 0 0) 0x17510000)
      (fun t => reg t 5 == 0xFFFFFFFF00000001) = true := by decide

-- Add and subtract: V3

theorem test_add_dirty_operand :
    gives (present (unitWith u5 0xE5 3 0) 0x20312000) (fun t => reg t 3 == 8 && statusOf t == 0) = true := by decide
theorem test_add_overflow_halts :
    gives (present (unitWith u5 0x1F 1 0) 0x20312000)
      (fun t => reg t 3 == 0 && statusOf t == 0x0210 && t.fcmd == 0x20312000) = true := by decide
theorem test_sub_wraps_unchecked :
    gives (present (unitWith i7Wrapping 0x00 0xC0 0) 0x21312000) (fun t => reg t 3 == 0xC0) = true := by decide
theorem test_sub_underflow_halts :
    gives (present (unitWith i1 0x00 0xFF 0) 0x21312000)
      (fun t => reg t 3 == 0 && statusOf t == 0x0210 && t.fcmd == 0x21312000) = true := by decide
theorem test_wadd_wraps :
    gives (present (unitWith i7 0x3F 4 0) 0x22312000) (fun t => reg t 3 == 0xC3 && statusOf t == 0) = true := by decide
theorem test_wadd_wraps_wide :
    gives (present (unitWith i127 0x3FFFFFFFFFFFFFFFFFFFFFFFFFFFFFFF 1 0) 0x22312000)
      (fun t => reg t 3 == 0xC0000000000000000000000000000000) = true := by decide
theorem test_wsub_wraps :
    gives (present (unitWith u5 3 5 0) 0x23312000) (fun t => reg t 3 == 0x1E && statusOf t == 0) = true := by decide
theorem test_wsub_wraps_wide :
    gives (present (unitWith u127 0 1 0) 0x23312000)
      (fun t => reg t 3 == 0x7FFFFFFFFFFFFFFFFFFFFFFFFFFFFFFF) = true := by decide

-- Bitwise: V4

theorem test_and_dirty_operands :
    gives (present (unitWith u5 0xFA 0xEF 0) 0x30312000) (fun t => reg t 3 == 0x0A) = true := by decide
theorem test_or_sign_extends :
    gives (present (unitWith i7 0x40 0x01 0) 0x31312000) (fun t => reg t 3 == 0xC1) = true := by decide
theorem test_xor_signed :
    gives (present (unitWith i7 0x3F 0xFF 0) 0x32312000) (fun t => reg t 3 == 0xC0) = true := by decide
theorem test_not_unsigned :
    gives (present (unitWith u5 0xE5 0 0) 0x33310000) (fun t => reg t 3 == 0x1A) = true := by decide
theorem test_not_signed :
    gives (present (unitWith i7 0x05 0 0) 0x33310000) (fun t => reg t 3 == 0xFA) = true := by decide

-- Shifts: V5

theorem test_shl_into_the_sign :
    gives (present (unitWith i7 0x20 0 0) 0x40210001) (fun t => reg t 2 == 0xC0) = true := by decide
theorem test_shl_faults_from_storage_width :
    gives (present (unitWith u12 1 0 0) 0x4021000F) (fun t => reg t 2 == 0 && statusOf t == 0) = true ∧
    gives (present (unitWith u12 1 5 0) 0x40210010)
      (fun t => reg t 2 == 5 && statusOf t == 0x0310 && t.fcmd == 0x40210010) = true := by decide
theorem test_shr_masks_first :
    gives (present (unitWith u5 0xFB 0 0) 0x41210001) (fun t => reg t 2 == 0x0D) = true := by decide
theorem test_shr_arithmetic :
    gives (present (unitWith i7 0x40 0 0) 0x41210001) (fun t => reg t 2 == 0xE0) = true := by decide

-- Compare and extract: V6, V7

theorem test_cmp_signed_dirty :
    gives (present (unitWith i7 0x40 0x00 0) 0x50012000) (fun t => statusOf t == 2) = true := by decide
theorem test_cmp_ignores_dirt :
    gives (present (unitWith u5 0xE5 0x05 0) 0x50012000) (fun t => statusOf t == 1) = true := by decide
theorem test_get_canonicalises :
    gives (present (unitWith i7 0x40 0 0) 0x60010000) (fun t => t.dout.toNat == 0xC0 && reg t 1 == 0x40) = true := by
  decide

-- Halting, reset and the words on the ports: V9c, V9e, R28

theorem test_illegal_word_halts :
    gives (present (unitWith u5 3 0 0) 0x20112001)
      (fun t => reg t 1 == 3 && statusOf t == 0x0410 && t.fcmd == 0x20112001) = true := by decide
theorem test_halted_unit_accepts_nothing :
    gives (step ((haltedUnit u5 ⟨false, true, 0x15100000, 0, Vector.replicate 16 0⟩)))
      (fun t => reg t 1 == 0 && statusOf t == 0x0410) = true := by decide
theorem test_reset_edge_clears_halt :
    gives (step ((haltedUnit u5 ⟨true, true, 0x15100000, 0, Vector.replicate 16 0xE5⟩)))
      (fun t => reg t 1 == 0xE5 && statusOf t == 0 && t.fcmd == 0 && !t.halted) = true := by decide
theorem test_cfg_words :
    cfgWord u5 = 0x1005 ∧ cfgWord i7 = 0x1807 ∧ cfgWord u127 = 0x047F := by decide

-- Witnesses: for every statement with hypotheses, a state and operands that meet all of them together, one for each
-- clause, at a boundary where the clause has one. Edges used below:

def commandEdge8 (w : CmdWord) (d : BitVec 8) : Edge 8 := ⟨false, true, w, d, Vector.replicate 16 0⟩
def idleEdge8 : Edge 8 := ⟨false, false, 0x10100000, 0x20, Vector.replicate 16 0⟩
def resetEdge8 : Edge 8 := ⟨true, true, 0x10100000, 0x20, Vector.replicate 16 0xE5⟩

/-- A unit with edges to come. -/
def awaiting (c : Config) (es : List (Edge c.W.bits)) : State := { unitWith c 3 5 0 with coming := es }

/-- The same unit before its first reset. -/
def neverReset (c : Config) (es : List (Edge c.W.bits)) : State := { awaiting c es with everReset := false }

theorem witness_DecodedWordsEncodeBack : decode 0x402100FF#32 = .ok (.shl 2 1 255) := by rfl
theorem witness_DecoderAcceptsExactlyTheTableWords :
    (⟨"SHL", 0x40000000#32, 0xFF00FF00#32⟩ : OpRow) ∈ opTable ∧
    OpRow.matchesWord ⟨"SHL", 0x40000000#32, 0xFF00FF00#32⟩ 0x402100FF#32 := by
  refine ⟨by decide, by rfl⟩
theorem witness_ConstantsOfAnInstantiation :
    u5.signed = false ∧ i7.signed = true ∧ 127 < i127.W.bits ∧ i8.N = i8.W.bits := by decide
theorem witness_LowMaskIsRightAtFullWidth : i7.N < i7.W.bits ∧ u8.N = u8.W.bits := by decide
theorem witness_MaskExtendsTheLowBits :
    u5.signed = false ∧ (i7.signed = true ∧ (0x3F#8).getLsbD (i7.N - 1) = false) ∧
    (i7.signed = true ∧ (0x40#8).getLsbD (i7.N - 1) = true) ∧ 6 < i7.N ∧ (i7.N ≤ 7 ∧ 7 < i7.W.bits) := by decide
/-- C5: the negative end of the range is covered. -/
theorem witness_MaskLaws : minInt i7 ≤ (-64 : Int) ∧ (-64 : Int) ≤ maxInt i7 := by decide
theorem witness_NarrowValueIsTheLowBits : u1.signed = false ∧ i1.signed = true := by decide
theorem witness_RangeTestsAgree :
    u5.signed = false ∧ (u5.N ≤ 5 ∧ 5 < u5.W.bits) ∧ i7.signed = true ∧ (i7.N ≤ 7 ∧ 7 < i7.W.bits) ∧
    i8.N = i8.W.bits := by decide
theorem witness_EqualAsValuesMeansEqualLowBits :
    equalAsValues (unitWith u5 0xE5 0x05 0).cfg ((unitWith u5 0xE5 0x05 0).readReg 1)
      ((unitWith u5 0xE5 0x05 0).readReg 2) := by unfold equalAsValues; decide
theorem witness_WordShiftsOnIntegers : (7 < u5.W.bits ∧ u5.signed = false) ∧ (0 < i7.W.bits ∧ i7.signed = true) := by
  decide
/-- `u5`: 31 + 1, 0 − 1, 30 + 1; the unsigned clauses are those of the first two. -/
theorem witness_ExactResultsWrapByOneModulus :
    ((32 : Int) = value u5 0x1F#8 + value u5 0x01#8 ∧ maxInt u5 < 32 ∧ u5.signed = false) ∧
    ((-1 : Int) = value u5 0x00#8 - value u5 0x01#8 ∧ -1 < minInt u5 ∧ u5.signed = false) ∧
    ((31 : Int) = value u5 0x1E#8 + value u5 0x01#8 ∧ minInt u5 ≤ 31 ∧ 31 ≤ maxInt u5) := by decide
theorem witness_RegisterWriteChangesOneRegister : (15 : Reg) ≠ 0 := by decide
theorem witness_FaultsAreExactlyThoseOfTheTable :
    fatalCause (.new 1) (unitWith u5 0 0 0x20) = some .range ∧
    fatalCause (.add 3 1 2) (unitWith u5 0x1F 1 0) = some .overflow ∧
    fatalCause (.sub 3 1 2) (unitWith u5 0 1 0) = some .overflow ∧
    fatalCause (.shl 2 1 8) (unitWith u5 1 0 0) = some .shift ∧
    fatalCause (.shr 2 1 8) (unitWith u5 1 0 0) = some .shift ∧
    fatalCause (.new 1) (unitWith u5 0 0 0x1F) = none ∧ fatalCause (.shl 2 1 7) (unitWith u5 1 0 0) = none := by decide
theorem witness_FaultsAreExactlyThoseOfTheTable_illegal : ∀ j, decode 0xFFFFFFFF#32 ≠ .ok j := by
  intro j h
  have e : decode 0xFFFFFFFF#32 = .error (.unknownOpcode 0xFF#8) := rfl
  rw [e] at h
  cases h

theorem witness_NewWritesInRangeOrRaisesRange :
    (minInt (unitWith i7 0 0 0x3F).cfg ≤ nat _ (unitWith i7 0 0 0x3F).din ∧
      nat _ (unitWith i7 0 0 0x3F).din ≤ maxInt (unitWith i7 0 0 0x3F).cfg) ∧
    maxInt (unitWith i7 0 0 0x40).cfg < nat _ (unitWith i7 0 0 0x40).din ∧
    nat _ (unitWith i7 0 0 0xBF).din < minInt (unitWith i7 0 0 0xBF).cfg ∧
    (unitWith i8 0 0 0x80).cfg.N = (unitWith i8 0 0 0x80).cfg.W.bits := by decide
theorem witness_TryNewAnswersInRerr :
    (minInt (unitWith u5 0 0 0x1F).cfg ≤ nat _ (unitWith u5 0 0 0x1F).din ∧
      nat _ (unitWith u5 0 0 0x1F).din ≤ maxInt (unitWith u5 0 0 0x1F).cfg) ∧
    maxInt (unitWith u5 0 0 0x20).cfg < nat _ (unitWith u5 0 0 0x20).din ∧
    nat _ (unitWith i7 0 0 0xBF).din < minInt (unitWith i7 0 0 0xBF).cfg ∧
    (unitWith u8 0 0 0xFF).cfg.N = (unitWith u8 0 0 0xFF).cfg.W.bits := by decide
theorem witness_TNewTruncates :
    (minInt (unitWith i7 0 0 0xC0).cfg ≤ nat _ (unitWith i7 0 0 0xC0).din ∧
      nat _ (unitWith i7 0 0 0xC0).din ≤ maxInt (unitWith i7 0 0 0xC0).cfg) ∧
    (unitWith i8 0 0 0x80).cfg.N = (unitWith i8 0 0 0x80).cfg.W.bits := by decide
theorem witness_ConstantsLoadAsListed :
    (unitWith u5 0 0 0).cfg.signed = false ∧
    ((unitWith i1 0 0 0).cfg.signed = true ∧ 7 < (unitWith i1 0 0 0).cfg.W.bits) := by decide
theorem witness_MaskCommandCanonicalises :
    mask (unitWith u5 0x1F 0 0).cfg ((unitWith u5 0x1F 0 0).readReg 1) = (unitWith u5 0x1F 0 0).readReg 1 ∧
    (unitWith i8 0xA5 0 0).cfg.N = (unitWith i8 0xA5 0 0).cfg.W.bits := by
  refine ⟨by rfl, by decide⟩
theorem witness_WsubWrapsTheDifference : (3 : Reg) = 3 ∧ (unitWith i1 0xFF 0 0).cfg.signed = true := by decide

/-- The exact results of `ADD` at both ends: `u5` 31 + 1 and 30 + 1 checked, `i7` 63 + 1 unchecked, `i7` −64 + −1. -/
theorem witness_AddChecksAtTheNarrowBounds :
    ((32 : Int) = value _ ((unitWith u5 0x1F 1 0).readReg 1) + value _ ((unitWith u5 0x1F 1 0).readReg 2) ∧
      (unitWith u5 0x1F 1 0).cfg.chk = true ∧ maxInt (unitWith u5 0x1F 1 0).cfg < 32) ∧
    ((-65 : Int) = value _ ((unitWith i7 0xC0 0xFF 0).readReg 1) + value _ ((unitWith i7 0xC0 0xFF 0).readReg 2) ∧
      (unitWith i7 0xC0 0xFF 0).cfg.chk = true ∧ -65 < minInt (unitWith i7 0xC0 0xFF 0).cfg) ∧
    ((31 : Int) = value _ ((unitWith u5 0x1E 1 0).readReg 1) + value _ ((unitWith u5 0x1E 1 0).readReg 2) ∧
      minInt (unitWith u5 0x1E 1 0).cfg ≤ 31 ∧ 31 ≤ maxInt (unitWith u5 0x1E 1 0).cfg) ∧
    ((64 : Int) = value _ ((unitWith i7Wrapping 0x3F 1 0).readReg 1) + value _ ((unitWith i7Wrapping 0x3F 1 0).readReg 2) ∧
      (unitWith i7Wrapping 0x3F 1 0).cfg.chk = false) := by decide
/-- The same for `SUB`: `i7` 63 − −1, `u5` 0 − 1, `u5` 5 − 5, `i7` −64 − 1 unchecked. -/
theorem witness_SubChecksAtTheNarrowBounds :
    ((64 : Int) = value _ ((unitWith i7 0x3F 0xFF 0).readReg 1) - value _ ((unitWith i7 0x3F 0xFF 0).readReg 2) ∧
      (unitWith i7 0x3F 0xFF 0).cfg.chk = true ∧ maxInt (unitWith i7 0x3F 0xFF 0).cfg < 64) ∧
    ((-1 : Int) = value _ ((unitWith u5 0 1 0).readReg 1) - value _ ((unitWith u5 0 1 0).readReg 2) ∧
      (unitWith u5 0 1 0).cfg.chk = true ∧ -1 < minInt (unitWith u5 0 1 0).cfg ∧
      (unitWith u5 0 1 0).cfg.signed = false) ∧
    ((0 : Int) = value _ ((unitWith u5 0xE5 0x25 0).readReg 1) - value _ ((unitWith u5 0xE5 0x25 0).readReg 2) ∧
      minInt (unitWith u5 0xE5 0x25 0).cfg ≤ 0 ∧ 0 ≤ maxInt (unitWith u5 0xE5 0x25 0).cfg) ∧
    ((-65 : Int) = value _ ((unitWith i7Wrapping 0xC0 1 0).readReg 1) - value _ ((unitWith i7Wrapping 0xC0 1 0).readReg 2) ∧
      (unitWith i7Wrapping 0xC0 1 0).cfg.chk = false) := by decide
theorem witness_BitwiseCommandsActBitByBit : 4 < (unitWith u5 0xFA 0xEF 0).cfg.N := by decide
theorem witness_NotComplementsTheNarrowBits :
    (4 < (unitWith u5 0xE5 0 0).cfg.N ∧ (unitWith u5 0xE5 0 0).cfg.signed = false) ∧
    (unitWith i7 0x40 0 0).cfg.signed = true ∧ (unitWith u8 0xA5 0 0).cfg.N = (unitWith u8 0xA5 0 0).cfg.W.bits := by
  decide
theorem witness_ShlMultipliesAndWraps :
    ((5#8).toNat < (unitWith u5 1 0 0).cfg.W.bits ∧ (unitWith u5 1 0 0).cfg.N ≤ (5#8).toNat) ∧
    ((0#8).toNat < (unitWith u5 1 0 0).cfg.W.bits ∧ (0#8 : Imm8) = 0) ∧
    (unitWith u127 1 0 0).cfg.W.bits ≤ (128#8).toNat := by decide
theorem witness_ShrDividesTheNarrowValue :
    ((7#8).toNat < (unitWith i7 0xC0 0 0).cfg.W.bits ∧ (unitWith i7 0xC0 0 0).cfg.N ≤ (7#8).toNat) ∧
    ((6#8).toNat < (unitWith i7 0xC0 0 0).cfg.W.bits ∧ (unitWith i7 0xC0 0 0).cfg.signed = true ∧
      (unitWith i7 0xC0 0 0).cfg.N = (6#8).toNat + 1) ∧
    ((0#8).toNat < (unitWith i7 0xC0 0 0).cfg.W.bits ∧ (0#8 : Imm8) = 0) ∧
    (unitWith i7 0xC0 0 0).cfg.W.bits ≤ (8#8).toNat := by decide
theorem witness_ShiftFaultsExactlyFromStorageWidth :
    (unitWith u5 1 0 0).status.halt = false ∧
    gives (exec (.shl 2 1 8) (unitWith u5 1 0 0)) (fun t => t.status.halt) = true ∧
    gives (exec (.shr 2 1 8) (unitWith u5 1 0 0)) (fun t => t.status.halt) = true ∧
    gives (exec (.shr 2 1 7) (unitWith u5 1 0 0)) (fun t => !t.status.halt) = true := by decide

-- Comparison, extraction and frames

theorem witness_CmpOrdersTheNarrowValues :
    ((-64 : Int) = value _ ((unitWith i7 0x40 0x3F 0).readReg 1) ∧
      (63 : Int) = value _ ((unitWith i7 0x40 0x3F 0).readReg 2) ∧ (unitWith i7 0x40 0x3F 0).cfg.signed = true) ∧
    ((5 : Int) = value _ ((unitWith u5 0xE5 5 0).readReg 1) ∧ (5 : Int) = value _ ((unitWith u5 0xE5 5 0).readReg 2) ∧
      (unitWith u5 0xE5 5 0).cfg.signed = false) ∧ (1 : Reg) = 1 := by decide
theorem witness_FlagsReadAsComparisonOperators :
    exec (.cmp 1 2) (unitWith u5 3 5 0) =
      .next { unitWith u5 3 5 0 with status := { Status.reset with lt := true } } := by rfl
theorem witness_GetDeliversTheNarrowValue : (unitWith i7 0x40 0 0).cfg.W.bits ≤ 128 := by decide
theorem witness_ConstructThenGetReturnsTheOperand :
    minInt (unitWith i7 0 0 0xC0).cfg ≤ nat _ (unitWith i7 0 0 0xC0).din ∧
    nat _ (unitWith i7 0 0 0xC0).din ≤ maxInt (unitWith i7 0 0 0xC0).cfg := by decide
theorem witness_FrameOfRegisterCommands :
    Instr.dest (.add 3 1 2) = some 3 ∧ fatalCause (.add 3 1 2) (unitWith u5 3 5 0) = none ∧
    fatalCause (.add 3 1 2) (unitWith u5 0x1F 1 0) ≠ none ∧ Instr.add 3 1 2 ≠ .tryNew 3 ∧ (15 : Reg) ≠ 3 := by decide
theorem witness_DinIsIgnoredByOtherCommands : Instr.readsDin (.ldMax 1) = false := by decide
theorem witness_OnlyRawNewBringsDirt :
    exec (.mask 2 1) (unitWith u5 0x1F 5 0) = .next ((unitWith u5 0x1F 5 0).writeReg 2 0x1F#8) ∧
    (unitWith u5 0x1F 5 0).allCanonical := by
  refine ⟨by rfl, ?_⟩
  unfold State.allCanonical
  decide
theorem witness_CommandsCannotSeeDirtyBits :
    sameValues (unitWith u5 0xE5 3 0).cfg (unitWith u5 0xE5 3 0).x (unitWith u5 0x05 3 0).x := by
  unfold sameValues equalAsValues
  decide
theorem witness_CfgWordIdentifiesTheUnit :
    cfgWord u5 = cfgWord (Config.u5 true) ∧ step (awaiting u5 []) = .next (awaiting u5 []) := ⟨rfl, rfl⟩
theorem witness_FieldsChangeOnlyByTheirCommand :
    (awaiting u5 [commandEdge8 0x50012000 0]).coming = [commandEdge8 0x50012000 0] ∧
    (commandEdge8 0x50012000 0).rst = false ∧
    gives (step (awaiting u5 [commandEdge8 0x50012000 0])) (fun t => t.status.lt) = true ∧
    gives (step (awaiting u5 [commandEdge8 0x11100000 0x20])) (fun t => t.status.rerr) = true ∧
    gives (step (awaiting u5 [commandEdge8 0x60010000 0])) (fun t => t.dout == 3) = true ∧
    gives (step (awaiting u5 [commandEdge8 0x10100000 0x20])) (fun t => t.status.halt) = true := by
  refine ⟨by rfl, by rfl, by decide, by decide, by decide, by decide⟩
theorem witness_ParametersNeverChange : step (awaiting u5 []) = .next (awaiting u5 []) := by rfl

-- The step

theorem witness_StepRunsTheDecodedCommand :
    (awaiting u5 [commandEdge8 0x20312000 0]).coming = commandEdge8 0x20312000 0 :: [] ∧
    (commandEdge8 0x20312000 0).rst = false ∧ (commandEdge8 0x20312000 0).cmdValid = true ∧
    (awaiting u5 [commandEdge8 0x20312000 0]).everReset = true ∧
    (awaiting u5 [commandEdge8 0x20312000 0]).status.halt = false ∧
    decode (commandEdge8 0x20312000 0).cmd = .ok (.add 3 1 2) := by
  refine ⟨by rfl, by rfl, by rfl, by rfl, by rfl, by rfl⟩
theorem witness_EdgesWithoutCommandChangeNothing :
    ((awaiting u5 []).everReset = true ∧ (awaiting u5 []).coming = []) ∧
    ((awaiting u5 [idleEdge8]).everReset = true ∧ (awaiting u5 [idleEdge8]).coming = idleEdge8 :: [] ∧
      idleEdge8.rst = false ∧ idleEdge8.cmdValid = false) := by
  refine ⟨⟨by rfl, by rfl⟩, by rfl, by rfl, by rfl, by rfl⟩
theorem witness_IllegalWordsHaltTheUnit :
    (awaiting u5 [commandEdge8 0x20112001 0]).coming = commandEdge8 0x20112001 0 :: [] ∧
    (commandEdge8 0x20112001 0).rst = false ∧ (commandEdge8 0x20112001 0).cmdValid = true ∧
    (awaiting u5 [commandEdge8 0x20112001 0]).everReset = true ∧
    (awaiting u5 [commandEdge8 0x20112001 0]).status.halt = false ∧
    (∀ r ∈ opTable, ¬ r.matchesWord (commandEdge8 0x20112001 0).cmd) := by
  refine ⟨by rfl, by rfl, by rfl, by rfl, by rfl, ?_⟩
  unfold OpRow.matchesWord
  decide
theorem witness_ResetEdgeGivesTheResetState :
    (haltedUnit u5 resetEdge8).coming = resetEdge8 :: [] ∧ resetEdge8.rst = true := by
  refine ⟨by rfl, by rfl⟩
theorem witness_HaltedUnitAcceptsNothing :
    (haltedUnit u5 (commandEdge8 0x10100000 4)).everReset = true ∧
    (haltedUnit u5 (commandEdge8 0x10100000 4)).status.halt = true ∧
    ∀ e ∈ (haltedUnit u5 (commandEdge8 0x10100000 4)).coming, e.rst = false := by decide
theorem witness_OnlyResetLeavesHalt :
    (haltedUnit u5 resetEdge8).status.halt = true ∧
    gives (step (haltedUnit u5 resetEdge8)) (fun t => !t.status.halt) = true := by decide
theorem witness_NothingRunsBeforeTheFirstReset :
    ((neverReset u5 []).everReset = false ∧ (neverReset u5 []).coming = []) ∧
    ((neverReset u5 [commandEdge8 0x10100000 4]).everReset = false ∧
      (neverReset u5 [commandEdge8 0x10100000 4]).coming = commandEdge8 0x10100000 4 :: [] ∧
      (commandEdge8 0x10100000 4).rst = false) := by
  refine ⟨⟨by rfl, by rfl⟩, by rfl, by rfl, by rfl⟩
theorem witness_UnitNeverStopsByItself : (awaiting u5 [commandEdge8 0x402100FF 0]).everReset = true := by rfl

-- Invariant and headline results

/-- A running state and a halted one that satisfy the invariant. -/
theorem witness_EveryStepKeepsTheInvariant :
    (awaiting u5 [commandEdge8 0x20312000 0]).Inv ∧ (haltedUnit u5 resetEdge8).Inv := by
  refine ⟨⟨by rfl, by decide, by decide, fun h => absurd h (by decide)⟩, ⟨by rfl, by decide, by decide, ?_⟩⟩
  intro _ i hi
  have h : decode (haltedUnit u5 resetEdge8).fcmd = .error (.unknownOpcode 0xFF#8) := rfl
  rw [h] at hi
  cases hi
theorem witness_RunsCannotSeeDirtyBits :
    (unitWith u5 0xE5 3 0).everReset = true ∧
    sameValues (unitWith u5 0xE5 3 0).cfg (unitWith u5 0xE5 3 0).x (unitWith u5 0x05 3 0).x :=
  ⟨rfl, witness_CommandsCannotSeeDirtyBits⟩
/-- `NEW x1, 3`, `TRYNEW x2, 5`, `ADD x3, x1, x2`, `GET x3`. -/
theorem witness_ConstructedProgramsIgnoreResetContents :
    constructsBeforeReading u5 []
      [commandEdge8 0x10100000 3, commandEdge8 0x11200000 5, commandEdge8 0x20312000 0, commandEdge8 0x60030000 0]
      = true := by decide
theorem witness_LosslessConversionsNeverFault :
    ((unitWith u12 0 0 0xFF).cfg.signed = false ∧ 8 ≤ (unitWith u12 0 0 0xFF).cfg.N ∧
      (unitWith u12 0 0 0xFF).din = dinOfUnsigned u12 0xFF#8) ∧
    ((unitWith i7 0 0 0xC0).cfg.signed = true ∧ 7 ≤ (unitWith i7 0 0 0xC0).cfg.N ∧
      (unitWith i7 0 0 0xC0).din = dinOfSigned i7 0x40#7) ∧
    ((unitWith i7 0 0 0x3F).cfg.signed = true ∧ 6 ≤ (unitWith i7 0 0 0x3F).cfg.N - 1 ∧
      (unitWith i7 0 0 0x3F).din = dinOfUnsigned i7 0x3F#6) := by
  refine ⟨⟨by rfl, by decide, by rfl⟩, ⟨by rfl, by decide, by rfl⟩, by rfl, by decide, by rfl⟩
theorem witness_NarrowingFailsExactlyOutsideTheRange :
    (-1 : Int) < minInt (unitWith u5 0 0 0).cfg ∧ maxInt (unitWith u5 0 0 0).cfg < 32 ∧
    (minInt (unitWith u5 0 0 0).cfg ≤ 31 ∧ 31 ≤ maxInt (unitWith u5 0 0 0).cfg) := by decide

end Sys2Proof.Tests
end

section
/-! PROOFS. The statements of 00_scope.md: the constants of an instantiation (R9), the narrow value as the reading of
the low N bits (R11), and the parameters that no step changes (R7). -/

namespace Sys2Proof.Machine

section Constants

variable (c : Config)

theorem minInt_unsigned (h : c.signed = false) : minInt c = 0 := by simp [minInt, h]

theorem maxInt_unsigned (h : c.signed = false) : maxInt c = 2 ^ c.N - 1 := by simp [maxInt, h]

theorem minInt_signed (h : c.signed = true) : minInt c = -(2 ^ (c.N - 1)) := by simp [minInt, h]

theorem maxInt_signed (h : c.signed = true) : maxInt c = 2 ^ (c.N - 1) - 1 := by simp [maxInt, h]

/-- At the full width every bit of `LOWMASK` is below N (R81). -/
theorem lowMask_full_width (h : c.N = c.W.bits) : lowMask c = BitVec.allOnes c.W.bits := by
  apply BitVec.eq_of_getLsbD_eq
  intro i hi
  rw [getLsbD_lowMask, BitVec.getLsbD_allOnes, h]

end Constants

/-- Settles O6, from the bounds of each kind and the bits of `LOWMASK`. -/
theorem constantsOfAnInstantiation : Obligations.ConstantsOfAnInstantiation := fun c =>
  ⟨fun h => ⟨minInt_unsigned c h, maxInt_unsigned c h⟩, fun h => ⟨minInt_signed c h, maxInt_signed c h⟩,
    fun i _ => getLsbD_lowMask c i, lowMask_full_width c⟩

section NarrowValue

variable (c : Config)

/-- `wrap` keeps the residue modulo `2^N`, as a congruence of integers. -/
theorem wrap_modEq (z : Int) : wrap c z ≡ z [ZMOD 2 ^ c.N] := by
  exact_mod_cast wrap_emod c z

theorem value_modEq (s : Word c) : value c s ≡ (s.toNat : Int) [ZMOD 2 ^ c.N] := by
  rw [value_eq_wrap]
  exact wrap_modEq c _

/-- The zero extension that masking makes in the unsigned unit keeps the unsigned reading. -/
theorem value_unsigned (h : c.signed = false) (s : Word c) : value c s = (s.extractLsb' 0 c.N).toNat := by
  simp only [value, nat, h, Bool.false_eq_true, if_false]
  rw [mask_unsigned c h, BitVec.toNat_setWidth_of_le c.N_le_W]

/-- The sign extension that masking makes in the signed unit keeps the two's complement reading. -/
theorem value_signed (h : c.signed = true) (s : Word c) : value c s = (s.extractLsb' 0 c.N).toInt := by
  simp only [value, nat, h, if_true]
  rw [mask_signed c h, BitVec.toInt_signExtend_of_le c.N_le_W]

end NarrowValue

/-- Settles O10: the narrow value is the wrapped unsigned reading, and masking extends the low N bits. -/
theorem narrowValueIsTheLowBits : Obligations.NarrowValueIsTheLowBits := by
  intro c s
  obtain ⟨hlo, hhi⟩ := value_bounds c s
  have hmask : mask c s = enc c (wrap c s.toNat) := by rw [mask_eq_enc_value, value_eq_wrap]
  exact ⟨hmask, hlo, hhi, value_modEq c s, fun h => value_unsigned c h s, fun h => value_signed c h s⟩

/-- A command that completes writes no parameter (R7). -/
theorem Completes.cfg_eq {i : Instr} {s t : State} (h : Completes i s t) : t.cfg = s.cfg := by
  cases h with
  | register | accepted | rejected | compared | delivered => rfl

/-- In none of the ways a step comes to its next state are the parameters written (R7, R28). -/
theorem StepsTo.cfg_eq {s t : State} (h : StepsTo s t) : t.cfg = s.cfg := by
  cases h with
  | quiet | reset | ignored | illegal | faulted => rfl
  | completed e rest _ _ _ _ _ i _ _ _ ht => exact ht.cfg_eq.trans (sample_cfg s e rest)

/-- Settles O46: the cases of a next state keep the parameters, and the `CFG` port reads nothing else. -/
theorem parametersNeverChange : Obligations.ParametersNeverChange := by
  intro s t h
  have hcfg : t.cfg = s.cfg := (stepsTo_of_step h).cfg_eq
  exact ⟨hcfg, congrArg cfgWord hcfg⟩

end Sys2Proof.Machine
end

section
/-! PROOFS. The invariant of 10_state.md section 4: each way a step comes to its next state keeps it. -/

namespace Sys2Proof.Machine

/-- The zero word stands for 0, which every narrow range holds (R9). -/
theorem mask_zero (c : Config) : mask c 0 = 0 := by
  have h0 : nat c 0 = 0 := by simp [nat]
  rw [mask_eq_self_iff, h0]
  unfold minInt maxInt
  have hp : 0 < 2 ^ (c.N - 1) := Nat.two_pow_pos _
  have hN : 0 < 2 ^ c.N := Nat.two_pow_pos _
  split_ifs <;> omega

/-- At the full width no operand is out of range, so `NEW` can raise `RANGE` only below it (R69, R70). -/
theorem N_lt_W_of_outOfRange (c : Config) {d : Word c} (h : ¬(minInt c ≤ nat c d ∧ nat c d ≤ maxInt c)) :
    c.N < c.W.bits := by
  refine lt_of_le_of_ne c.N_le_W fun hfull => h ?_
  exact (mask_eq_self_iff c d).mp (mask_full_width c hfull d)

/-- The cause a command raises, with the word it was decoded from, is a genuine fault record (R142). -/
theorem faultRecordIsGenuine_of_fatalCause {w : CmdWord} {i : Instr} {s : State} {C : Cause}
    (hd : decode w = .ok i) (hc : fatalCause i s = some C) : faultRecordIsGenuine s.cfg w C := by
  cases i with
  | new d =>
    obtain ⟨hr, ⟨⟩⟩ := Option.ite_none_left_eq_some.mp hc
    exact ⟨N_lt_W_of_outOfRange _ hr, d, hd⟩
  | add d a b =>
    obtain ⟨⟨hchk, -⟩, ⟨⟩⟩ := Option.ite_none_right_eq_some.mp hc
    exact ⟨hchk, d, a, b, .inl hd⟩
  | sub d a b =>
    obtain ⟨⟨hchk, -⟩, ⟨⟩⟩ := Option.ite_none_right_eq_some.mp hc
    exact ⟨hchk, d, a, b, .inr hd⟩
  | shl d a k =>
    obtain ⟨hk, ⟨⟩⟩ := Option.ite_none_right_eq_some.mp hc
    exact ⟨d, a, k, .inl hd, hk⟩
  | shr d a k =>
    obtain ⟨hk, ⟨⟩⟩ := Option.ite_none_right_eq_some.mp hc
    exact ⟨d, a, k, .inr hd, hk⟩
  | tryNew | tNew | rawNew | ldMin | ldMax | copy | mask | wadd | wsub | and | or | xor | not | cmp | get => cases hc

variable {s : State}

/-- The invariant speaks of `STATUS`, `FCMD` and `DOUT` only, which a register write leaves alone. -/
theorem State.Inv.writeReg (hs : s.Inv) (r : Reg) (v : Word s.cfg) : (s.writeReg r v).Inv :=
  ⟨hs.doutCanonical, hs.flagsExclusive, hs.runningRecordEmpty, hs.haltedRecordGenuine⟩

theorem State.Inv.sample (hs : s.Inv) (e : Edge s.cfg.W.bits) (rest : List (Edge s.cfg.W.bits)) :
    (s.sample e rest).Inv :=
  ⟨hs.doutCanonical, hs.flagsExclusive, hs.runningRecordEmpty, hs.haltedRecordGenuine⟩

theorem State.Inv.withRerr (hs : s.Inv) (b : Bool) : (s.writeStatus { s.status with rerr := b }).Inv :=
  ⟨hs.doutCanonical, hs.flagsExclusive, hs.runningRecordEmpty, hs.haltedRecordGenuine⟩

/-- The comparison flags of one `CMP` are those of an order of integers (R120). -/
theorem State.Inv.compare (hs : s.Inv) (v w : Word s.cfg) : (s.writeStatus (s.status.compare s.cfg v w)).Inv where
  doutCanonical := hs.doutCanonical
  flagsExclusive := by
    simp only [writeStatus_status, Status.compare, decide_eq_true_eq]
    omega
  runningRecordEmpty := hs.runningRecordEmpty
  haltedRecordGenuine := hs.haltedRecordGenuine

theorem State.Inv.writeDout (hs : s.Inv) (r : Reg) : (s.writeDout (s.readMasked r)).Inv :=
  ⟨mask_mask s.cfg _, hs.flagsExclusive, hs.runningRecordEmpty, hs.haltedRecordGenuine⟩

theorem State.Inv.takeFatal (hs : s.Inv) {C : Cause} (hC : faultRecordIsGenuine s.cfg s.cmd C) :
    (s.takeFatal C).Inv where
  doutCanonical := hs.doutCanonical
  flagsExclusive := hs.flagsExclusive
  runningRecordEmpty h := by cases h
  haltedRecordGenuine _ := hC

theorem inv_resetUnit (fresh : Vector (Word s.cfg) 16) : (s.resetUnit fresh).Inv where
  doutCanonical := mask_zero s.cfg
  flagsExclusive := by simp [Status.reset]
  runningRecordEmpty _ := ⟨rfl, rfl⟩
  haltedRecordGenuine h := by cases h

/-- A command that completes keeps the invariant: only `CMP` and `GET` write a field it speaks of. -/
theorem Completes.inv {i : Instr} {t : State} (h : Completes i s t) (hs : s.Inv) : t.Inv := by
  cases h with
  | register d v => exact hs.writeReg d v
  | accepted d => exact (hs.writeReg d s.din).withRerr false
  | rejected => exact hs.withRerr true
  | compared a b => exact hs.compare _ _
  | delivered a => exact hs.writeDout a

theorem StepsTo.inv {t : State} (h : StepsTo s t) (hs : s.Inv) : t.Inv := by
  cases h with
  | quiet => exact hs
  | reset e rest => exact inv_resetUnit (s := s.sample e rest) e.fresh
  | ignored e rest => exact hs.sample e rest
  | illegal e rest _ _ _ _ _ hd => exact (hs.sample e rest).takeFatal hd
  | faulted e rest _ _ _ _ _ i hd C hc =>
    exact (hs.sample e rest).takeFatal (faultRecordIsGenuine_of_fatalCause hd hc)
  | completed e rest _ _ _ _ _ i _ _ _ ht => exact ht.inv (hs.sample e rest)

/-- Settles O56: every case of a next state keeps the invariant. -/
theorem everyStepKeepsTheInvariant : Obligations.EveryStepKeepsTheInvariant :=
  fun _ _ hs h => (stepsTo_of_step h).inv hs

end Sys2Proof.Machine
end

section
/-! PROOFS. Dirty bits cannot be seen (10_state.md R25): two states that differ in register words equal as values give
next states that differ in nothing else, command by command, step by step and run by run. -/

namespace Sys2Proof.Machine

/-- Two outcomes are next states that differ in register words only, and those are equal as values. -/
def TwinResults (a b : Result) : Prop :=
  ∃ (t : State) (z : Vector (Word t.cfg) 16), a = .next t ∧ b = .next { t with x := z } ∧ sameValues t.cfg t.x z

/-- A decision that comes out the same in both states keeps twin results. -/
theorem TwinResults.ite {p q : Prop} [Decidable p] [Decidable q] {a a' b b' : Result} (hpq : p ↔ q)
    (ha : TwinResults a a') (hb : TwinResults b b') :
    TwinResults (if p then a else b) (if q then a' else b') := by
  by_cases hp : p
  · rwa [if_pos hp, if_pos (hpq.mp hp)]
  · rwa [if_neg hp, if_neg (mt hpq.mpr hp)]

/-- Writing words equal as values to one register keeps register files equal as values. -/
theorem sameValues_set {c : Config} {x y : Vector (Word c) 16} (h : sameValues c x y) (d : Reg) {v w : Word c}
    (hv : equalAsValues c v w) : sameValues c (x.set d.val v) (y.set d.val w) := by
  intro r
  simp only [Vector.get_eq_getElem, Vector.getElem_set]
  split
  · exact hv
  · exact h r

/-- `CMP` tells no word from another that is equal as a value (R122). -/
theorem compare_congr (c : Config) (f : Status) {v v' w w' : Word c} (hv : equalAsValues c v v')
    (hw : equalAsValues c w w') : f.compare c v w = f.compare c v' w' := by
  unfold equalAsValues at hv hw
  rw [Status.compare, Status.compare, hv, hw]

section Twins

variable {s : State} {y : Vector (Word s.cfg) 16} (h : sameValues s.cfg s.x y)
include h

theorem valueOf_twin (r : Reg) : s.valueOf r = State.valueOf { s with x := y } r := h r

/-- What a command other than `COPY` reads of a register is the same word in both states. -/
theorem readMasked_twin (r : Reg) : s.readMasked r = State.readMasked { s with x := y } r :=
  (mask_eq_iff_value_eq s.cfg).mpr (h r)

theorem wrappingAdd_twin (a b : Reg) : wrappingAdd s.cfg (s.readReg a) (s.readReg b) =
    wrappingAdd s.cfg (State.readReg { s with x := y } a) (State.readReg { s with x := y } b) :=
  congrArg₂ (fun v w => mask s.cfg (v + w)) (readMasked_twin h a) (readMasked_twin h b)

theorem wrappingSub_twin (a b : Reg) : wrappingSub s.cfg (s.readReg a) (s.readReg b) =
    wrappingSub s.cfg (State.readReg { s with x := y } a) (State.readReg { s with x := y } b) :=
  congrArg₂ (fun v w => mask s.cfg (v - w)) (readMasked_twin h a) (readMasked_twin h b)

theorem raiseFatal_twin (C : Cause) : TwinResults (raiseFatal C s) (raiseFatal C { s with x := y }) :=
  ⟨s.takeFatal C, y, rfl, rfl, h⟩

theorem completeWith_twin (d : Reg) {v w : Word s.cfg} (hv : equalAsValues s.cfg v w) :
    TwinResults (completeWith d s v) (completeWith d { s with x := y } w) :=
  ⟨s.writeReg d v, y.set d.val w, rfl, rfl, sameValues_set h d hv⟩

/-- A command that computes one word from what it reads through the masking function. -/
theorem completeWith_twin_of_eq (d : Reg) {v w : Word s.cfg} (hv : v = w) :
    TwinResults (completeWith d s v) (completeWith d { s with x := y } w) :=
  completeWith_twin h d (congrArg (value s.cfg) hv)

theorem writeStatus_twin {f g : Status} (hf : f = g) :
    TwinResults (.next (s.writeStatus f)) (.next (State.writeStatus { s with x := y } g)) := by
  subst hf
  exact ⟨s.writeStatus f, y, rfl, rfl, h⟩

theorem writeDout_twin {v w : Word s.cfg} (hv : v = w) :
    TwinResults (.next (s.writeDout v)) (.next (State.writeDout { s with x := y } w)) := by
  subst hv
  exact ⟨s.writeDout v, y, rfl, rfl, h⟩

/-- No command tells a state from its twin (R25). -/
theorem exec_twin (i : Instr) : TwinResults (exec i s) (exec i { s with x := y }) := by
  cases i with
  | new d => exact .ite .rfl (completeWith_twin h d rfl) (raiseFatal_twin h .range)
  | tryNew d =>
    exact .ite .rfl (writeStatus_twin (s := s.writeReg d s.din) (sameValues_set h d rfl) rfl)
      (writeStatus_twin h rfl)
  | tNew d | rawNew d | ldMin d | ldMax d => exact completeWith_twin h d rfl
  | copy d a => exact completeWith_twin h d (h a)
  | mask d a => exact completeWith_twin_of_eq h d (readMasked_twin h a)
  | add d a b =>
    refine .ite ?_ (raiseFatal_twin h .overflow) (completeWith_twin_of_eq h d (wrappingAdd_twin h a b))
    rw [valueOf_twin h a, valueOf_twin h b]
  | sub d a b =>
    refine .ite ?_ (raiseFatal_twin h .overflow) (completeWith_twin_of_eq h d (wrappingSub_twin h a b))
    rw [valueOf_twin h a, valueOf_twin h b]
  | wadd d a b => exact completeWith_twin_of_eq h d (wrappingAdd_twin h a b)
  | wsub d a b => exact completeWith_twin_of_eq h d (wrappingSub_twin h a b)
  | and d a b => exact completeWith_twin_of_eq h d (congrArg₂ (· &&& ·) (readMasked_twin h a) (readMasked_twin h b))
  | or d a b => exact completeWith_twin_of_eq h d (congrArg₂ (· ||| ·) (readMasked_twin h a) (readMasked_twin h b))
  | xor d a b => exact completeWith_twin_of_eq h d (congrArg₂ (· ^^^ ·) (readMasked_twin h a) (readMasked_twin h b))
  | not d a => exact completeWith_twin_of_eq h d (congrArg (fun v => Machine.mask s.cfg (~~~v)) (readMasked_twin h a))
  | shl d a k =>
    exact .ite .rfl (raiseFatal_twin h .shift) (completeWith_twin_of_eq h d
      (congrArg (fun v => Machine.mask s.cfg (shiftLeftWord s.cfg v k.toNat)) (readMasked_twin h a)))
  | shr d a k =>
    exact .ite .rfl (raiseFatal_twin h .shift) (completeWith_twin_of_eq h d
      (congrArg (fun v => Machine.mask s.cfg (shiftRightWord s.cfg v k.toNat)) (readMasked_twin h a)))
  | cmp a b => exact writeStatus_twin h (compare_congr s.cfg s.status (h a) (h b))
  | get a => exact writeDout_twin h (readMasked_twin h a)

/-- An accepted word does the same in both states: the command it decodes to, or `ILLEGAL` (R60, R63). -/
theorem acceptWord_twin (w : CmdWord) : TwinResults (acceptWord w s) (acceptWord w { s with x := y }) := by
  unfold acceptWord
  cases decode w with
  | ok i => exact exec_twin h i
  | error => exact raiseFatal_twin h .illegal

/-- No step of a unit that has been reset tells a state from its twin. -/
theorem step_twin (hs : s.everReset = true) : TwinResults (step s) (step { s with x := y }) := by
  by_cases hc : s.coming = []
  · exact ⟨s, y, step_quiet s hc hs, step_quiet { s with x := y } hc hs, h⟩
  obtain ⟨e, rest, hc⟩ := List.exists_cons_of_ne_nil hc
  by_cases hr : e.rst = true
  · exact ⟨(s.sample e rest).resetUnit e.fresh, e.fresh, step_reset s e rest hc hr,
      step_reset { s with x := y } e rest hc hr, fun _ => rfl⟩
  rw [Bool.not_eq_true] at hr
  by_cases hn : e.cmdValid = false ∨ s.status.halt = true
  · exact ⟨s.sample e rest, y, step_ignored s e rest hc hr hs hn,
      step_ignored { s with x := y } e rest hc hr hs hn, h⟩
  rw [not_or, Bool.not_eq_false, Bool.not_eq_true] at hn
  obtain ⟨hv, hh⟩ := hn
  rw [step_accepts s e rest hc hr hs hv hh, step_accepts { s with x := y } e rest hc hr hs hv hh]
  exact acceptWord_twin (s := s.sample e rest) h e.cmd

end Twins

/-- Settles O42: no command tells a state from its twin. -/
theorem commandsCannotSeeDirtyBits : Obligations.CommandsCannotSeeDirtyBits :=
  fun i _ _ h => exec_twin h i

theorem Completes.everReset_eq {i : Instr} {s t : State} (h : Completes i s t) : t.everReset = s.everReset := by
  cases h with
  | register | accepted | rejected | compared | delivered => rfl

/-- A unit that has been reset stays one that has been reset. -/
theorem StepsTo.everReset {s t : State} (h : StepsTo s t) (hs : s.everReset = true) : t.everReset = true := by
  cases h with
  | reset => rfl
  | quiet | ignored | illegal | faulted => exact hs
  | completed _ _ _ _ _ _ _ _ _ _ _ ht => exact ht.everReset_eq.trans hs

/-- Settles O57, by induction on the number of steps: each step gives twins again. -/
theorem runsCannotSeeDirtyBits : Obligations.RunsCannotSeeDirtyBits := by
  intro k
  induction k with
  | zero => exact fun s y _ h => ⟨s, y, rfl, rfl, h⟩
  | succ k ih =>
    intro s y hs h
    obtain ⟨t, z, ht, hz, hsame⟩ := step_twin h hs
    rw [run_succ k ht, run_succ k hz]
    exact ih t z ((stepsTo_of_step ht).everReset hs) hsame

end Sys2Proof.Machine
end

section
/-! PROOFS. Frames (10_state.md R20, R23, R26, R32): what a register write and a command leave unchanged, which words a
command can leave in the register file, and that `din` is read by the four constructions alone. -/

namespace Sys2Proof.Machine

/-- Settles O16, from the reads after a write. -/
theorem registerWriteChangesOneRegister : Obligations.RegisterWriteChangesOneRegister := fun s r v =>
  ⟨readReg_writeReg_self s r v, fun _ hr => readReg_writeReg_other s r v hr, s.x.set r.val v, rfl⟩

/-- Settles O39: a fault writes no register, and of the writes a command can make, those of a command with a
destination leave the other registers and flags alone. -/
theorem frameOfRegisterCommands : Obligations.FrameOfRegisterCommands := by
  intro i d s hd
  rcases exec_cases i s with ⟨C, hC, hx⟩ | ⟨hC, t, hx, ht⟩
  · have hfault : fatalCause i s ≠ none := by simp [hC]
    exact ⟨s.x, s.status.withFatal C, s.cmd, hx, fun _ _ => rfl, rfl, rfl, rfl, fun _ => rfl,
      fun hnone => absurd hnone hfault, fun _ => ⟨rfl, rfl⟩⟩
  · have hnofault {p : Prop} (h : fatalCause i s ≠ none) : p := absurd hC h
    cases ht with
    | register d' v hd' =>
      obtain rfl : d' = d := Option.some.inj (hd'.symm.trans hd)
      exact ⟨s.x.set d'.val v, s.status, s.fcmd, hx, fun _ hr => readReg_writeReg_other s d' v hr,
        rfl, rfl, rfl, fun _ => rfl, fun _ => ⟨rfl, rfl, rfl⟩, hnofault⟩
    | accepted d' hi =>
      subst hi
      obtain rfl : d' = d := Option.some.inj hd
      exact ⟨s.x.set d'.val s.din, _, s.fcmd, hx, fun _ hr => readReg_writeReg_other s d' s.din hr,
        rfl, rfl, rfl, fun hn => absurd rfl hn, fun _ => ⟨rfl, rfl, rfl⟩, hnofault⟩
    | rejected d' hi =>
      subst hi
      obtain rfl : d' = d := Option.some.inj hd
      exact ⟨s.x, _, s.fcmd, hx, fun _ _ => rfl,
        rfl, rfl, rfl, fun hn => absurd rfl hn, fun _ => ⟨rfl, rfl, rfl⟩, hnofault⟩
    | compared a b hi =>
      subst hi
      cases hd
    | delivered a hi =>
      subst hi
      cases hd

/-- The cases of the next state of a command: a fatal fault, or one write of its kind. -/
theorem cases_of_exec {i : Instr} {s t : State} (h : exec i s = .next t) :
    (∃ C, t = s.takeFatal C) ∨ Completes i s t := by
  rcases exec_cases i s with ⟨C, -, hx⟩ | ⟨-, u, hx, hu⟩
  · rw [hx] at h
    exact .inl ⟨C, (Host.Outcome.next.inj h).symm⟩
  · rw [hx] at h
    exact .inr (Host.Outcome.next.inj h ▸ hu)

section Canonical

variable {i : Instr} {s t : State} {d : Reg} {v : Word s.cfg}

/-- After the write of a canonical word a register is as before or is the one written, and canonical. -/
theorem readReg_writeReg_canonical (hd : i.dest = some d) (hv : mask s.cfg v = v) (r : Reg) :
    (s.writeReg d v).readReg r = s.readReg r ∨
      (i.dest = some r ∧ mask s.cfg ((s.writeReg d v).readReg r) = (s.writeReg d v).readReg r) := by
  by_cases hr : r = d
  · subst hr
    have hread := readReg_writeReg_self s r v
    exact .inr ⟨hd, hread.symm ▸ hv⟩
  · exact .inl (readReg_writeReg_other s d v hr)

theorem allCanonical_writeReg (hs : s.allCanonical) (d : Reg) (hv : mask s.cfg v = v) :
    (s.writeReg d v).allCanonical := by
  intro r
  by_cases hr : r = d
  · subst hr
    have hread := readReg_writeReg_self s r v
    exact hread.symm ▸ hv
  · have hread := readReg_writeReg_other s d v hr
    exact hread.symm ▸ hs r

/-- A command other than `RAWNEW` and `COPY` that completes writes no register or a canonical word (R26). -/
theorem Completes.registers (h : Completes i s t) (hraw : ∀ d, i ≠ .rawNew d) (hcopy : ∀ d a, i ≠ .copy d a) :
    ∃ (y : Vector (Word s.cfg) 16) (f : Status) (w : BitVec 32) (v : Word s.cfg),
      t = { s with x := y, status := f, fcmd := w, dout := v } ∧
      ∀ r, y.get r = s.x.get r ∨ (i.dest = some r ∧ mask s.cfg (y.get r) = y.get r) := by
  cases h with
  | register d v hd _ hv =>
    rcases hv with hv | ⟨hi, -⟩ | ⟨a, hi, -⟩
    · exact ⟨s.x.set d.val v, s.status, s.fcmd, s.dout, rfl, readReg_writeReg_canonical hd hv⟩
    · exact absurd hi (hraw d)
    · exact absurd hi (hcopy d a)
  | accepted d hi hr =>
    exact ⟨s.x.set d.val s.din, _, s.fcmd, s.dout, rfl,
      readReg_writeReg_canonical (hi ▸ rfl) ((mask_eq_self_iff _ _).mpr hr)⟩
  | rejected | compared | delivered => exact ⟨s.x, _, s.fcmd, _, rfl, fun _ => .inl rfl⟩

/-- A command other than `RAWNEW` that completes keeps canonical registers canonical; `COPY` moves a word of theirs. -/
theorem Completes.allCanonical (h : Completes i s t) (hraw : ∀ d, i ≠ .rawNew d) (hs : s.allCanonical) :
    t.allCanonical := by
  cases h with
  | register d v _ _ hv =>
    rcases hv with hv | ⟨hi, -⟩ | ⟨a, -, rfl⟩
    · exact allCanonical_writeReg hs d hv
    · exact absurd hi (hraw d)
    · exact allCanonical_writeReg hs d (hs a)
  | accepted d _ hr => exact allCanonical_writeReg hs d ((mask_eq_self_iff _ _).mpr hr)
  | rejected | compared | delivered => exact hs

end Canonical

/-- Settles O41: a fault writes no register, and `RAWNEW` alone writes a word that may be new and dirty. -/
theorem onlyRawNewBringsDirt : Obligations.OnlyRawNewBringsDirt := by
  intro i s t h
  rcases cases_of_exec h with ⟨C, rfl⟩ | ht
  · exact ⟨fun _ _ => ⟨s.x, _, s.cmd, s.dout, rfl, fun _ => .inl rfl⟩, fun _ hs => hs⟩
  · exact ⟨ht.registers, ht.allCanonical⟩

/-- Two outcomes are next states that differ in what port `din` carries only: `s` and `d` are the state and the other
word on the port. -/
def AgreeButForDin (s : State) (d : Word s.cfg) (a b : Result) : Prop :=
  ∃ (y : Vector (Word s.cfg) 16) (f : Status) (w : BitVec 32) (v : Word s.cfg),
    a = .next { s with x := y, status := f, fcmd := w, dout := v } ∧
    b = .next { s with x := y, status := f, fcmd := w, dout := v, din := d }

section Din

variable (s : State) (d : Word s.cfg)

theorem raiseFatal_agree (C : Cause) : AgreeButForDin s d (raiseFatal C s) (raiseFatal C { s with din := d }) :=
  ⟨s.x, s.status.withFatal C, s.cmd, s.dout, rfl, rfl⟩

theorem completeWith_agree (r : Reg) (v : Word s.cfg) :
    AgreeButForDin s d (completeWith r s v) (completeWith r { s with din := d } v) :=
  ⟨s.x.set r.val v, s.status, s.fcmd, s.dout, rfl, rfl⟩

variable {s d}

theorem AgreeButForDin.ite {p : Prop} [Decidable p] {a a' b b' : Result} (ha : AgreeButForDin s d a a')
    (hb : AgreeButForDin s d b b') : AgreeButForDin s d (if p then a else b) (if p then a' else b') := by
  by_cases hp : p
  · rwa [if_pos hp, if_pos hp]
  · rwa [if_neg hp, if_neg hp]

end Din

/-- Settles O40: the words and decisions of such a command are made from the registers alone. -/
theorem dinIsIgnoredByOtherCommands : Obligations.DinIsIgnoredByOtherCommands := by
  intro i s d hi
  cases i with
  | new | tryNew | tNew | rawNew => cases hi
  | ldMin rd | ldMax rd | copy rd | mask rd | wadd rd | wsub rd | and rd | or rd | xor rd | not rd =>
    exact completeWith_agree s d rd _
  | add rd | sub rd => exact AgreeButForDin.ite (raiseFatal_agree s d .overflow) (completeWith_agree s d rd _)
  | shl rd | shr rd => exact AgreeButForDin.ite (raiseFatal_agree s d .shift) (completeWith_agree s d rd _)
  | cmp a b => exact ⟨s.x, s.status.compare s.cfg (s.readReg a) (s.readReg b), s.fcmd, s.dout, rfl, rfl⟩
  | get a => exact ⟨s.x, s.status, s.fcmd, s.readMasked a, rfl, rfl⟩

end Sys2Proof.Machine
end

section
/-! PROOFS. The layout of the `STATUS` and `CFG` words (10_state.md R27, R28): a field of a word stands above the parts
appended after it. -/

namespace Sys2Proof.Machine

theorem getLsbD_statusWord (f : Status) : f.word.getLsbD 0 = f.eq ∧ f.word.getLsbD 1 = f.lt ∧
    f.word.getLsbD 2 = f.gt ∧ f.word.getLsbD 3 = f.rerr ∧ f.word.getLsbD 4 = f.halt := by
  simp only [Status.word, BitVec.getLsbD_append, BitVec.getLsbD_ofBool]
  simp

theorem statusWord_low_reserved (f : Status) : f.word.extractLsb' 5 3 = 0 := by
  unfold Status.word
  iterate 5 rw [BitVec.extractLsb'_append_eq_of_le (by decide)]
  exact BitVec.extractLsb'_append_eq_right

theorem statusWord_cause (f : Status) : f.word.extractLsb' 8 4 = f.cause.code := by
  unfold Status.word
  iterate 6 rw [BitVec.extractLsb'_append_eq_of_le (by decide)]
  exact BitVec.extractLsb'_append_eq_right

theorem statusWord_high_reserved (f : Status) : f.word.extractLsb' 12 4 = 0 := by
  unfold Status.word
  iterate 6 rw [BitVec.extractLsb'_append_eq_of_le (by decide)]
  exact BitVec.extractLsb'_append_eq_left

/-- Settles O43, field by field. -/
theorem statusWordLayout : Obligations.StatusWordLayout := by
  refine ⟨fun f => ?_, rfl⟩
  obtain ⟨heq, hlt, hgt, hrerr, hhalt⟩ := getLsbD_statusWord f
  exact ⟨heq, hlt, hgt, hrerr, hhalt, statusWord_low_reserved f, statusWord_cause f, statusWord_high_reserved f⟩

theorem cfgWord_kind (c : Config) : (cfgWord c).getLsbD 11 = c.signed ∧ (cfgWord c).getLsbD 12 = c.chk := by
  simp only [cfgWord, BitVec.getLsbD_append, BitVec.getLsbD_ofBool]
  simp

/-- The eight bits for N hold it, since no storage word is wider than 128 bits (R4, R5). -/
theorem cfgWord_N (c : Config) : ((cfgWord c).extractLsb' 0 8).toNat = c.N := by
  have hW : c.W.bits ≤ 128 := by cases c.W <;> decide
  have hN : c.N < 2 ^ 8 := by have := c.N_le_W; omega
  have hslice : (cfgWord c).extractLsb' 0 8 = BitVec.ofNat 8 c.N := BitVec.extractLsb'_append_eq_right
  rw [hslice, BitVec.toNat_ofNat, Nat.mod_eq_of_lt hN]

theorem cfgWord_width (c : Config) : (cfgWord c).extractLsb' 8 3 = widthCode c.W := by
  unfold cfgWord
  rw [BitVec.extractLsb'_append_eq_of_le (by decide)]
  exact BitVec.extractLsb'_append_eq_right

theorem cfgWord_reserved (c : Config) : (cfgWord c).extractLsb' 13 3 = 0 := by
  unfold cfgWord
  iterate 3 rw [BitVec.extractLsb'_append_eq_of_le (by decide)]
  exact BitVec.extractLsb'_append_eq_left

theorem two_pow_widthCode (W : Width) : 2 ^ ((widthCode W).toNat + 3) = W.bits := by cases W <;> rfl

theorem widthCode_injective : Function.Injective widthCode := by
  intro W W' h
  have hbits : W.bits = W'.bits := by rw [← two_pow_widthCode, ← two_pow_widthCode, h]
  have hof := Width.ofBits?_bits W
  rw [hbits, Width.ofBits?_bits] at hof
  exact (Option.some.inj hof).symm

/-- Each parameter of an instantiation can be read from its `CFG` word (R28). -/
theorem cfgWord_injective : Function.Injective cfgWord := by
  intro c c' h
  have hN : c.N = c'.N := by rw [← cfgWord_N, ← cfgWord_N, h]
  have hW : c.W = c'.W := widthCode_injective (by rw [← cfgWord_width, ← cfgWord_width, h])
  have hsigned : c.signed = c'.signed := by rw [← (cfgWord_kind c).1, ← (cfgWord_kind c').1, h]
  have hchk : c.chk = c'.chk := by rw [← (cfgWord_kind c).2, ← (cfgWord_kind c').2, h]
  obtain ⟨N, W, signed, chk, _, _⟩ := c
  exact (Config.mk.injEq ..).mpr ⟨hN, hW, hsigned, hchk⟩

/-- Settles O44, from the fields of the word and the parameters that no step changes. -/
theorem cfgWordIdentifiesTheUnit : Obligations.CfgWordIdentifiesTheUnit := by
  refine ⟨fun c => ?_, fun _ _ h => cfgWord_injective h, fun s t h => (parametersNeverChange s t h).2⟩
  obtain ⟨hsigned, hchk⟩ := cfgWord_kind c
  exact ⟨cfgWord_N c, cfgWord_width c, hsigned, hchk, cfgWord_reserved c, two_pow_widthCode c.W⟩

end Sys2Proof.Machine
end

section
/-! PROOFS. What one edge without reset does (10_state.md R27, R29 to R31): it runs the command it presents, or changes
nothing, and each field of the status registers is written by its own command. -/

namespace Sys2Proof.Machine

/-- Settles O47: the edge is accepted, and its word is the command. -/
theorem stepRunsTheDecodedCommand : Obligations.StepRunsTheDecodedCommand := by
  intro s e rest i hc hr hv hs hh hd
  exact (step_accepts s e rest hc hr hs hv hh).trans (acceptWord_command (s.sample e rest) hd)

/-- Settles O48: a quiet edge, and an edge at which nothing is accepted. -/
theorem edgesWithoutCommandChangeNothing : Obligations.EdgesWithoutCommandChangeNothing := fun s hs =>
  ⟨fun hc => step_quiet s hc hs, fun e rest hc hr hv => step_ignored s e rest hc hr hs (.inl hv)⟩

/-- A command that completes changes the comparison flags only if it is `CMP`, `RERR` only if it is `TRYNEW`, `DOUT`
only if it is `GET`, and never the fault record (R27, R29, R30). -/
theorem Completes.changes {i : Instr} {s t : State} (h : Completes i s t) :
    ((t.status.eq, t.status.lt, t.status.gt) ≠ (s.status.eq, s.status.lt, s.status.gt) → ∃ a b, i = .cmp a b) ∧
    (t.status.rerr ≠ s.status.rerr → ∃ d, i = .tryNew d) ∧
    (t.dout.toNat ≠ s.dout.toNat → ∃ a, i = .get a) ∧
    (t.status.halt, t.status.cause, t.fcmd) = (s.status.halt, s.status.cause, s.fcmd) := by
  cases h with
  | register => exact ⟨absurd rfl, absurd rfl, absurd rfl, rfl⟩
  | accepted d hi | rejected d hi => exact ⟨absurd rfl, fun _ => ⟨d, hi⟩, absurd rfl, rfl⟩
  | compared a b hi => exact ⟨fun _ => ⟨a, b, hi⟩, absurd rfl, absurd rfl, rfl⟩
  | delivered a hi => exact ⟨absurd rfl, absurd rfl, fun _ => ⟨a, hi⟩, rfl⟩

/-- Settles O45: an ignored edge changes none of these fields, a fault the fault record of a running unit alone, and a
command that completes the field of its own. -/
theorem fieldsChangeOnlyByTheirCommand : Obligations.FieldsChangeOnlyByTheirCommand := by
  intro s t e rest hc hr h
  cases stepsTo_of_step h with
  | quiet hnone =>
    rw [hnone] at hc
    cases hc
  | reset e' rest' hc' hr' =>
    obtain ⟨rfl, -⟩ := List.cons.inj (hc'.symm.trans hc)
    rw [hr] at hr'
    cases hr'
  | ignored => exact ⟨absurd rfl, absurd rfl, absurd rfl, absurd rfl⟩
  | illegal e' rest' hc' _ _ _ hh | faulted e' rest' hc' _ _ _ hh =>
    obtain ⟨rfl, -⟩ := List.cons.inj (hc'.symm.trans hc)
    exact ⟨absurd rfl, absurd rfl, absurd rfl, fun _ => ⟨hh, rfl, rfl⟩⟩
  | completed e' rest' hc' _ _ _ _ i hd _ _ ht =>
    obtain ⟨rfl, -⟩ := List.cons.inj (hc'.symm.trans hc)
    obtain ⟨hflags, hrerr, hdout, hrecord⟩ := ht.changes
    rw [hd]
    refine ⟨fun hne => ?_, fun hne => ?_, fun hne => ?_, fun hne => absurd hrecord hne⟩
    · obtain ⟨a, b, rfl⟩ := hflags hne
      exact ⟨a, b, rfl⟩
    · obtain ⟨d, rfl⟩ := hrerr hne
      exact ⟨d, rfl⟩
    · obtain ⟨a, rfl⟩ := hdout hne
      exact ⟨a, rfl⟩

end Sys2Proof.Machine
end

section
/-! PROOFS. The host's bytes (20_memory.md R41): the four bytes of a command word, put together again, are the word. -/

namespace Sys2Proof

/-- Putting the four bytes of a command word together in the host's order gives it back (R41): adjacent slices of a
word make one slice. -/
theorem cmdOfHostBytes_hostByte (w : CmdWord) :
    cmdOfHostBytes (hostByte w 0) (hostByte w 1) (hostByte w 2) (hostByte w 3) = w := by
  unfold cmdOfHostBytes hostByte
  rw [BitVec.extractLsb'_append_extractLsb'_eq_extractLsb' (by decide),
    BitVec.extractLsb'_append_extractLsb'_eq_extractLsb' (by decide),
    BitVec.extractLsb'_append_extractLsb'_eq_extractLsb' (by decide)]
  exact BitVec.extractLsb'_eq_self

/-- Settles O5: the decoder reads the first four bytes as the word they carry. -/
theorem hostBytesCarryTheCommandWord : Obligations.HostBytesCarryTheCommandWord := fun w rest =>
  congrArg (fun v => some (decode v, rest)) (cmdOfHostBytes_hostByte w)

end Sys2Proof
end

section
/-! PROOFS. A unit that has been reset never stops by itself (20_memory.md R43, 70_reset_and_hazards.md R169): each of
its steps answers, and uses up the edge at hand. -/

namespace Sys2Proof.Machine

theorem Completes.coming_length {i : Instr} {s t : State} (h : Completes i s t) :
    t.coming.length = s.coming.length := by
  cases h with
  | register | accepted | rejected | compared | delivered => rfl

/-- A step uses up the edge at hand, if there is one, and no other. -/
theorem StepsTo.coming_length {s t : State} (h : StepsTo s t) : t.coming.length = s.coming.length - 1 := by
  cases h with
  | quiet hc => simp [hc]
  | reset _ _ hc | ignored _ _ hc | illegal _ _ hc | faulted _ _ hc => simp [hc]
  | completed _ _ hc _ _ _ _ _ _ _ _ ht => simp [hc, ht.coming_length]

/-- Settles O54: a step is refused only before the first reset, and every other case of a step comes to a next state
in which the unit still has been reset. -/
theorem unitNeverStopsByItself : Obligations.UnitNeverStopsByItself := by
  intro s hs
  rcases step_cases s with ⟨hnever, -, -⟩ | ⟨t, ht, hcase⟩
  · rw [hs] at hnever
    cases hnever
  · exact ⟨t, ht, hcase.everReset hs, hcase.coming_length⟩

end Sys2Proof.Machine
end

section
/-! PROOFS. The encoding (30_encoding.md R51 to R54, R60, R64). The decoder and the encoder are each described by the
same three facts about a command and a word: the word carries the command's opcode, leaves the fields its format does
not use zero, and names the command's operands in its other fields. -/

namespace Sys2Proof

/-- The opcode of a command (R54). -/
def Instr.opcode : Instr → BitVec 8
  | .new _ => 0x10#8
  | .tryNew _ => 0x11#8
  | .tNew _ => 0x12#8
  | .rawNew _ => 0x13#8
  | .ldMin _ => 0x14#8
  | .ldMax _ => 0x15#8
  | .copy _ _ => 0x16#8
  | .mask _ _ => 0x17#8
  | .add _ _ _ => 0x20#8
  | .sub _ _ _ => 0x21#8
  | .wadd _ _ _ => 0x22#8
  | .wsub _ _ _ => 0x23#8
  | .and _ _ _ => 0x30#8
  | .or _ _ _ => 0x31#8
  | .xor _ _ _ => 0x32#8
  | .not _ _ => 0x33#8
  | .shl _ _ _ => 0x40#8
  | .shr _ _ _ => 0x41#8
  | .cmp _ _ => 0x50#8
  | .get _ => 0x60#8

/-- The format of a command (R52). -/
def Instr.format : Instr → Format
  | .new _ | .tryNew _ | .tNew _ | .rawNew _ | .ldMin _ | .ldMax _ => .D
  | .copy _ _ | .mask _ _ | .not _ _ => .U
  | .add _ _ _ | .sub _ _ _ | .wadd _ _ _ | .wsub _ _ _ | .and _ _ _ | .or _ _ _ | .xor _ _ _ => .R
  | .shl _ _ _ | .shr _ _ _ => .S
  | .cmp _ _ => .P
  | .get _ => .G

/-- The command of the same mnemonic whose operands are those the fields of a word name (R51, R53). -/
def Instr.withOperandsOf (i : Instr) (w : CmdWord) : Instr :=
  let d := regOfField (rdField w)
  let a := regOfField (rs1Field w)
  let b := regOfField (rs2Field w)
  let k := imm8Field w
  match i with
  | .new _ => .new d
  | .tryNew _ => .tryNew d
  | .tNew _ => .tNew d
  | .rawNew _ => .rawNew d
  | .ldMin _ => .ldMin d
  | .ldMax _ => .ldMax d
  | .copy _ _ => .copy d a
  | .mask _ _ => .mask d a
  | .add _ _ _ => .add d a b
  | .sub _ _ _ => .sub d a b
  | .wadd _ _ _ => .wadd d a b
  | .wsub _ _ _ => .wsub d a b
  | .and _ _ _ => .and d a b
  | .or _ _ _ => .or d a b
  | .xor _ _ _ => .xor d a b
  | .not _ _ => .not d a
  | .shl _ _ _ => .shl d a k
  | .shr _ _ _ => .shr d a k
  | .cmp _ _ => .cmp a b
  | .get _ => .get a

-- The decoder

/-- The decoder's arm for a command's opcode: the command with the word's operands, under the command's format. -/
theorem decode_of_opField (i : Instr) (w : CmdWord) (h : opField w = i.opcode) :
    decode w = underFormat i.format w (i.withOperandsOf w) := by
  unfold decode
  rw [h]
  cases i <;> rfl

/-- Every arm of the decoder that answers a command stands under that command's opcode. -/
theorem opField_of_decode {w : CmdWord} {i : Instr} (h : decode w = .ok i) : opField w = i.opcode := by
  unfold decode at h
  split at h
  case h_21 => cases h
  all_goals
    obtain ⟨-, rfl⟩ := (underFormat_eq_ok_iff _ _ _ _).mp h
    assumption

/-- What the decoder answers (R51 to R54, R60). -/
theorem decode_eq_ok_iff (w : CmdWord) (i : Instr) :
    decode w = .ok i ↔ carries i.opcode i.format w ∧ i.withOperandsOf w = i := by
  constructor
  · intro h
    have hop := opField_of_decode h
    rw [decode_of_opField i w hop, underFormat_eq_ok_iff] at h
    obtain ⟨hzero, hoperands⟩ := h
    exact ⟨⟨hop, hzero⟩, hoperands⟩
  · rintro ⟨⟨hop, hzero⟩, hoperands⟩
    rw [decode_of_opField i w hop, underFormat_eq_ok_iff]
    exact ⟨hzero, hoperands⟩

-- The encoder

/-- The word of a format from an opcode and the operands the format uses (R52). -/
def Format.pack (f : Format) (op : BitVec 8) (d a b : Reg) (k : Imm8) : CmdWord :=
  match f with
  | .D => packD op d
  | .U => packU op d a
  | .R => packR op d a b
  | .S => packS op d a k
  | .P => packP op a b
  | .G => packG op a

/-- A word that carries an opcode in a format is packed from that opcode and the word's own operand fields. -/
theorem pack_of_carries {op : BitVec 8} {f : Format} {w : CmdWord} (h : carries op f w) :
    f.pack op (regOfField (rdField w)) (regOfField (rs1Field w)) (regOfField (rs2Field w)) (imm8Field w) = w := by
  obtain ⟨rfl, hzero⟩ := h
  have hz : zField w = 0#4 := by simpa [fieldIsZero] using hzero .z (by cases f <;> decide)
  have hw := packWord_fields w hz
  cases f
  all_goals
    simp only [Format.zeroFields, List.forall_mem_cons, fieldIsZero, beq_iff_eq] at hzero
    simpa [Format.pack, packD, packU, packR, packS, packP, packG, fieldOfReg_regOfField, hzero] using hw

theorem encode_withOperandsOf (i : Instr) (w : CmdWord) :
    encode (i.withOperandsOf w) = i.format.pack i.opcode (regOfField (rdField w)) (regOfField (rs1Field w))
      (regOfField (rs2Field w)) (imm8Field w) := by
  cases i <;> rfl

theorem carries_encode (i : Instr) : carries i.opcode i.format (encode i) := by
  cases i with
  | new | tryNew | tNew | rawNew | ldMin | ldMax => exact Laws.OpcodeAndFormat.carriesD _ _
  | copy | mask | not => exact Laws.OpcodeAndFormat.carriesU _ _ _
  | add | sub | wadd | wsub | and | or | xor => exact Laws.OpcodeAndFormat.carriesR _ _ _ _
  | shl | shr => exact Laws.OpcodeAndFormat.carriesS _ _ _ _
  | cmp => exact Laws.OpcodeAndFormat.carriesP _ _ _
  | get => exact Laws.OpcodeAndFormat.carriesG _ _

theorem withOperandsOf_encode (i : Instr) : i.withOperandsOf (encode i) = i := by
  cases i <;>
    simp [Instr.withOperandsOf, encode, packD, packU, packR, packS, packP, packG, rdField_packWord, rs1Field_packWord,
      rs2Field_packWord, imm8Field_packWord, regOfField_fieldOfReg]

/-- What the encoder answers: the same three facts as `decode_eq_ok_iff` (R52, R54, R64). -/
theorem encode_eq_iff (i : Instr) (w : CmdWord) :
    encode i = w ↔ carries i.opcode i.format w ∧ i.withOperandsOf w = i := by
  constructor
  · rintro rfl
    exact ⟨carries_encode i, withOperandsOf_encode i⟩
  · rintro ⟨hcarries, hoperands⟩
    calc encode i = encode (i.withOperandsOf w) := by rw [hoperands]
      _ = w := (encode_withOperandsOf i w).trans (pack_of_carries hcarries)

/-- Decoder and encoder are one relation between words and commands. -/
theorem decode_eq_ok_iff_encode_eq (w : CmdWord) (i : Instr) : decode w = .ok i ↔ encode i = w :=
  (decode_eq_ok_iff w i).trans (encode_eq_iff i w).symm

/-- Settles O1, from what the decoder and the encoder each answer. -/
theorem encodedCommandsDecodeBack : Obligations.EncodedCommandsDecodeBack := fun i =>
  (decode_eq_ok_iff_encode_eq (encode i) i).mpr rfl

/-- Settles O2, by the same equivalence read the other way. -/
theorem decodedWordsEncodeBack : Obligations.DecodedWordsEncodeBack := fun w i h =>
  (decode_eq_ok_iff_encode_eq w i).mp h

/-- Settles O4: eight of the words are encodings, and the decoder is run on the four illegal ones. -/
theorem wordsOfTheSpecDecodeAsListed : Obligations.WordsOfTheSpecDecodeAsListed := by
  have hcommand (w : CmdWord) (i : Instr) (h : encode i = w) : decode w = .ok i :=
    (decode_eq_ok_iff_encode_eq w i).mpr h
  exact ⟨hcommand _ _ rfl, hcommand _ _ rfl, hcommand _ _ rfl, hcommand _ _ rfl, hcommand _ _ rfl, hcommand _ _ rfl,
    hcommand _ _ rfl, hcommand _ _ rfl, rfl, rfl, rfl, rfl⟩

end Sys2Proof
end

section
/-! PROOFS. The opcode map (30_encoding.md R54): the pattern and the bits that matter of a row are those of an opcode
and a format, so that a word matches the row exactly when it carries that opcode in that format. -/

namespace Sys2Proof

/-- The bits of a word that matter under a format: the opcode and the fields that must be zero (R54's `mask`). -/
def Format.care : Format → CmdWord
  | .D => 0xFF0FFFFF#32
  | .U => 0xFF00FFFF#32
  | .R => 0xFF000FFF#32
  | .S => 0xFF00FF00#32
  | .P => 0xFFF00FFF#32
  | .G => 0xFFF0FFFF#32

/-- The bits of a field that matter under a format: all if the field must be zero, else none (R52). -/
def Format.fieldCare (f : Format) (g : Field) (n : Nat) : BitVec n :=
  if g ∈ f.zeroFields then BitVec.allOnes n else 0#n

theorem fields_care (f : Format) :
    opField f.care = BitVec.allOnes 8 ∧ rdField f.care = f.fieldCare .rd 4 ∧ rs1Field f.care = f.fieldCare .rs1 4 ∧
    rs2Field f.care = f.fieldCare .rs2 4 ∧ zField f.care = f.fieldCare .z 4 ∧
    imm8Field f.care = f.fieldCare .imm8 8 := by
  cases f <;> decide

theorem and_fieldCare_eq_zero_iff (f : Format) (g : Field) {n : Nat} (x : BitVec n) :
    x &&& f.fieldCare g n = 0#n ↔ (g ∈ f.zeroFields → x = 0#n) := by
  unfold Format.fieldCare
  by_cases hg : g ∈ f.zeroFields <;> simp [hg]

/-- A word is its six fields in a row (R51): adjacent slices of a word make one slice. -/
theorem append_fields (w : CmdWord) :
    opField w ++ rdField w ++ rs1Field w ++ rs2Field w ++ zField w ++ imm8Field w = w := by
  unfold opField rdField rs1Field rs2Field zField imm8Field
  iterate 5 rw [BitVec.extractLsb'_append_extractLsb'_eq_extractLsb' (by decide)]
  exact BitVec.extractLsb'_eq_self

theorem word_eq_iff_fields (v w : CmdWord) :
    v = w ↔ opField v = opField w ∧ rdField v = rdField w ∧ rs1Field v = rs1Field w ∧ rs2Field v = rs2Field w ∧
      zField v = zField w ∧ imm8Field v = imm8Field w := by
  constructor
  · rintro rfl
    exact ⟨rfl, rfl, rfl, rfl, rfl, rfl⟩
  · rintro ⟨hop, hrd, hrs1, hrs2, hz, himm8⟩
    rw [← append_fields v, hop, hrd, hrs1, hrs2, hz, himm8, append_fields]

theorem fields_and (v w : CmdWord) :
    opField (v &&& w) = opField v &&& opField w ∧ rdField (v &&& w) = rdField v &&& rdField w ∧
    rs1Field (v &&& w) = rs1Field v &&& rs1Field w ∧ rs2Field (v &&& w) = rs2Field v &&& rs2Field w ∧
    zField (v &&& w) = zField v &&& zField w ∧ imm8Field (v &&& w) = imm8Field v &&& imm8Field w :=
  ⟨BitVec.extractLsb'_and, BitVec.extractLsb'_and, BitVec.extractLsb'_and, BitVec.extractLsb'_and,
    BitVec.extractLsb'_and, BitVec.extractLsb'_and⟩

theorem forall_field_iff (p : Field → Prop) : (∀ g, p g) ↔ p .rd ∧ p .rs1 ∧ p .rs2 ∧ p .z ∧ p .imm8 := by
  constructor
  · intro h
    exact ⟨h _, h _, h _, h _, h _⟩
  · rintro ⟨hrd, hrs1, hrs2, hz, himm8⟩ g
    cases g <;> assumption

/-- The bits that matter turn a word into the pattern of an opcode exactly when the word carries the opcode (R54). -/
theorem and_care_eq_pattern_iff (op : BitVec 8) (f : Format) (w : CmdWord) :
    w &&& f.care = packWord op 0 0 0 0 ↔ carries op f w := by
  obtain ⟨hop, hrd, hrs1, hrs2, hz, himm8⟩ := fields_care f
  rw [word_eq_iff_fields]
  simp only [fields_and, hop, hrd, hrs1, hrs2, hz, himm8, opField_packWord, rdField_packWord, rs1Field_packWord,
    rs2Field_packWord, zField_packWord, imm8Field_packWord, BitVec.and_allOnes]
  simp [carries, forall_field_iff, fieldIsZero, and_fieldCare_eq_zero_iff]

/-- The row of a command in the opcode map (R54). -/
def Instr.row (i : Instr) : OpRow := ⟨i.mnemonic, packWord i.opcode 0 0 0 0, i.format.care⟩

theorem row_matchesWord_iff (i : Instr) (w : CmdWord) : i.row.matchesWord w ↔ carries i.opcode i.format w :=
  and_care_eq_pattern_iff i.opcode i.format w

/-- A row does not depend on the operands. -/
theorem row_withOperandsOf (i : Instr) (w : CmdWord) : (i.withOperandsOf w).row = i.row := by
  cases i <;> rfl

/-- A command of each row, in the order of the opcode map. -/
def commandOfEachRow : List Instr :=
  [.new 0, .tryNew 0, .tNew 0, .rawNew 0, .ldMin 0, .ldMax 0, .copy 0 0, .mask 0 0,
   .add 0 0 0, .sub 0 0 0, .wadd 0 0 0, .wsub 0 0 0, .and 0 0 0, .or 0 0 0, .xor 0 0 0, .not 0 0,
   .shl 0 0 0, .shr 0 0 0, .cmp 0 0, .get 0]

theorem opTable_eq_map_row : opTable = commandOfEachRow.map Instr.row := by rfl

theorem withOperandsOf_zero_mem (i : Instr) : i.withOperandsOf 0 ∈ commandOfEachRow := by
  have hreg : regOfField 0#4 = 0 := rfl
  cases i <;> simp [commandOfEachRow, Instr.withOperandsOf, rdField, rs1Field, rs2Field, imm8Field, hreg]

/-- The opcode map lists the rows of the commands and no others. -/
theorem mem_opTable_iff (r : OpRow) : r ∈ opTable ↔ ∃ i : Instr, i.row = r := by
  rw [opTable_eq_map_row, List.mem_map]
  constructor
  · rintro ⟨i, -, hi⟩
    exact ⟨i, hi⟩
  · rintro ⟨i, hi⟩
    exact ⟨i.withOperandsOf 0, withOperandsOf_zero_mem i, (row_withOperandsOf i 0).trans hi⟩

/-- A word that matches a command's row decodes to that command with the word's operands. -/
theorem decode_of_row_matchesWord {i : Instr} {w : CmdWord} (h : i.row.matchesWord w) :
    decode w = .ok (i.withOperandsOf w) := by
  obtain ⟨hop, hzero⟩ := (row_matchesWord_iff i w).mp h
  rw [decode_of_opField i w hop, underFormat_eq_ok_iff]
  exact ⟨hzero, rfl⟩

/-- A word decodes to a command of a mnemonic exactly when it matches a row of that mnemonic (R54). -/
theorem exists_decode_iff_exists_row (w : CmdWord) (m : String) :
    (∃ i, decode w = .ok i ∧ i.mnemonic = m) ↔ ∃ r ∈ opTable, r.mnemonic = m ∧ r.matchesWord w := by
  constructor
  · rintro ⟨i, hi, hm⟩
    obtain ⟨hcarries, -⟩ := (decode_eq_ok_iff w i).mp hi
    exact ⟨i.row, (mem_opTable_iff _).mpr ⟨i, rfl⟩, hm, (row_matchesWord_iff i w).mpr hcarries⟩
  · rintro ⟨r, hr, hm, hmatch⟩
    obtain ⟨i, rfl⟩ := (mem_opTable_iff r).mp hr
    have hsame := congrArg OpRow.mnemonic (row_withOperandsOf i w)
    exact ⟨i.withOperandsOf w, decode_of_row_matchesWord hmatch, hsame.trans hm⟩

/-- The pattern of a row that a word matches is the one of the word's opcode. -/
theorem pattern_eq_of_matchesWord {r : OpRow} {w : CmdWord} (hr : r ∈ opTable) (h : r.matchesWord w) :
    r.pattern = packWord (opField w) 0 0 0 0 := by
  obtain ⟨i, rfl⟩ := (mem_opTable_iff r).mp hr
  obtain ⟨hop, -⟩ := (row_matchesWord_iff i w).mp h
  exact congrArg (packWord · 0 0 0 0) hop.symm

theorem patterns_nodup : (opTable.map OpRow.pattern).Nodup := by decide

/-- Settles O3: a row says of a word what the decoder asks of it, and two rows that a word matches have the pattern of
its opcode, which no two rows share. -/
theorem decoderAcceptsExactlyTheTableWords : Obligations.DecoderAcceptsExactlyTheTableWords :=
  ⟨exists_decode_iff_exists_row, fun _ _ _ hr hr' h h' => List.inj_on_of_nodup_map patterns_nodup hr hr'
    ((pattern_eq_of_matchesWord hr h).trans (pattern_eq_of_matchesWord hr' h').symm)⟩

end Sys2Proof
end

section
/-! PROOFS. Construction (40_construction.md): the tests of being in range (R69), the construction commands (R70 to
R73), the constants MIN and MAX as storage words (R74, R75) and `COPY` (R76). -/

namespace Sys2Proof.Machine

section RangeTest

variable (c : Config)

/-- Masking leaves a word as it is exactly when its bits from N up are those masking would put there: copies of the
sign bit in the signed unit, zeros in the unsigned unit (R69, R80). -/
theorem mask_eq_self_iff_highBits (d : Word c) :
    mask c d = d ↔ ∀ i, c.N ≤ i → i < c.W.bits → d.getLsbD i = (c.signed && d.getLsbD (c.N - 1)) := by
  constructor
  · intro hmask i hN hW
    have hbit := getLsbD_mask c d i hW
    rwa [hmask, if_neg (by omega)] at hbit
  · intro hhigh
    apply BitVec.eq_of_getLsbD_eq
    intro i hW
    rw [getLsbD_mask c d i hW]
    split_ifs with hN
    · rfl
    · exact (hhigh i (by omega) hW).symm

/-- The range test is the test of canonicity (R69). -/
theorem inRange_iff_mask_eq_self (d : Word c) : inRange c d = true ↔ mask c d = d :=
  (inRange_iff c d).trans (mask_eq_self_iff c d).symm

theorem inRange_iff_highBits (d : Word c) :
    inRange c d = true ↔ ∀ i, c.N ≤ i → i < c.W.bits → d.getLsbD i = (c.signed && d.getLsbD (c.N - 1)) :=
  (inRange_iff_mask_eq_self c d).trans (mask_eq_self_iff_highBits c d)

/-- At the full width the narrow range holds every native reading (R69). -/
theorem nat_bounds_full_width (h : c.N = c.W.bits) (d : Word c) : minInt c ≤ nat c d ∧ nat c d ≤ maxInt c :=
  (mask_eq_self_iff c d).mp (mask_full_width c h d)

/-- An integer below MIN or above MAX is not in the narrow range (R69). -/
theorem not_narrow_of_outside {z : Int} (h : z < minInt c ∨ maxInt c < z) : ¬(minInt c ≤ z ∧ z ≤ maxInt c) := by
  omega

/-- The narrow value is the wrapped native reading as well as the wrapped unsigned one (R11, R72). -/
theorem value_eq_wrap_nat (d : Word c) : value c d = wrap c (nat c d) :=
  (value_eq_wrap c d).trans (wrap_congr c (nat_emod c d).symm)

end RangeTest

/-- Settles O12: the range test is the test of canonicity, which looks at the bits from N up. -/
theorem rangeTestsAgree : Obligations.RangeTestsAgree := by
  intro c d
  have hbits := inRange_iff_highBits c d
  refine ⟨inRange_iff c d, inRange_iff_mask_eq_self c d, fun hu => ?_, fun hs => ?_,
    fun hfull => (inRange_iff c d).mpr (nat_bounds_full_width c hfull d)⟩
  · simpa only [hu, Bool.false_and] using hbits
  · simpa only [hs, Bool.true_and] using hbits

/-- Settles O19, from what `NEW` does with an operand in and out of range. -/
theorem newWritesInRangeOrRaisesRange : Obligations.NewWritesInRangeOrRaisesRange := fun rd s =>
  ⟨carries_encode (.new rd),
    fun hlo hhi => ⟨execNew_inRange rd s ⟨hlo, hhi⟩, (mask_eq_self_iff _ _).mpr ⟨hlo, hhi⟩⟩,
    fun hout => execNew_outOfRange rd s (not_narrow_of_outside _ hout),
    fun hfull => execNew_inRange rd s (nat_bounds_full_width _ hfull _)⟩

/-- Settles O20, from what `TRYNEW` does with an operand in and out of range. -/
theorem tryNewAnswersInRerr : Obligations.TryNewAnswersInRerr := fun rd s =>
  ⟨carries_encode (.tryNew rd),
    fun hlo hhi => execTryNew_inRange rd s ⟨hlo, hhi⟩,
    fun hout => execTryNew_outOfRange rd s (not_narrow_of_outside _ hout),
    fun hfull => execTryNew_inRange rd s (nat_bounds_full_width _ hfull _)⟩

/-- `TNEW` writes the masked operand, whatever it is (R72). -/
theorem execTNew_completes (rd : Reg) (s : State) :
    exec (.tNew rd) s = .next (s.writeReg rd (mask s.cfg s.din)) := rfl

/-- Settles O21: masking keeps the narrow value, and a canonical operand as it is. -/
theorem tNewTruncates : Obligations.TNewTruncates := by
  intro rd s
  have hexec := execTNew_completes rd s
  refine ⟨hexec, (value_mask _ _).trans (value_eq_wrap_nat _ _),
    fun hlo hhi => (mask_eq_self_iff _ _).mpr ⟨hlo, hhi⟩, fun hfull => ?_⟩
  rwa [mask_full_width s.cfg hfull] at hexec

/-- Settles O22: the narrow value of a word does not depend on its being masked. -/
theorem rawNewStoresVerbatim : Obligations.RawNewStoresVerbatim := fun _ s =>
  ⟨rfl, value_eq_wrap_nat s.cfg s.din, (value_mask s.cfg s.din).symm⟩

section StorageWords

variable (c : Config)

/-- The storage word of `2^n − 1` has its n low bits set and no other. -/
theorem getLsbD_enc_two_pow_sub_one (n : Nat) {i : Nat} (hi : i < c.W.bits) :
    (enc c (2 ^ n - 1)).getLsbD i = decide (i < n) := by
  have hcast : (2 ^ n - 1 : Int) = ((2 ^ n - 1 : Nat) : Int) := by
    push_cast [Nat.one_le_two_pow]
    rfl
  rw [enc, hcast, BitVec.ofInt_natCast, BitVec.getLsbD_ofNat, Nat.testBit_two_pow_sub_one, decide_eq_true hi,
    Bool.true_and]

/-- The storage word of `−2^n` is the complement of that of `2^n − 1`. -/
theorem enc_neg_two_pow (n : Nat) : enc c (-(2 ^ n)) = ~~~(enc c (2 ^ n - 1)) := by
  rw [BitVec.not_eq_neg_add, BitVec.eq_sub_iff_add_eq, ← BitVec.ofInt_natCast, enc, enc, ← BitVec.ofInt_add,
    ← BitVec.ofInt_neg]
  congr 1
  push_cast
  ring

theorem getLsbD_enc_neg_two_pow (n : Nat) {i : Nat} (hi : i < c.W.bits) :
    (enc c (-(2 ^ n))).getLsbD i = decide (n ≤ i) := by
  rw [enc_neg_two_pow, BitVec.getLsbD_not, getLsbD_enc_two_pow_sub_one c n hi, decide_eq_true hi, Bool.true_and,
    ← decide_not, decide_eq_decide]
  exact Nat.not_lt

/-- `LOWMASK` is the storage word of `2^N − 1` (R9). -/
theorem enc_two_pow_N_sub_one : enc c (2 ^ c.N - 1) = lowMask c := by
  apply BitVec.eq_of_getLsbD_eq
  intro i hi
  rw [getLsbD_enc_two_pow_sub_one c c.N hi, getLsbD_lowMask]

/-- The words of MIN and MAX in the unsigned unit (R74, R75). -/
theorem enc_bounds_unsigned (h : c.signed = false) : enc c (minInt c) = 0 ∧ enc c (maxInt c) = lowMask c := by
  rw [minInt_unsigned c h, maxInt_unsigned c h]
  exact ⟨BitVec.ofInt_natCast c.W.bits 0, enc_two_pow_N_sub_one c⟩

/-- The words of MIN and MAX in the signed unit, bit by bit (R74, R75). -/
theorem getLsbD_enc_bounds_signed (h : c.signed = true) {i : Nat} (hi : i < c.W.bits) :
    (enc c (minInt c)).getLsbD i = decide (c.N - 1 ≤ i) ∧ (enc c (maxInt c)).getLsbD i = decide (i < c.N - 1) := by
  rw [minInt_signed c h, maxInt_signed c h]
  exact ⟨getLsbD_enc_neg_two_pow c _ hi, getLsbD_enc_two_pow_sub_one c _ hi⟩

end StorageWords

/-- Settles O23: the words written are those of MIN and MAX, which the native reading gives back. -/
theorem constantsLoadAsListed : Obligations.ConstantsLoadAsListed := fun rd s =>
  ⟨enc s.cfg (minInt s.cfg), enc s.cfg (maxInt s.cfg), carries_encode (.ldMin rd), carries_encode (.ldMax rd), rfl, rfl,
    nat_enc_of_narrow _ ⟨le_refl _, minInt_le_maxInt _⟩, nat_enc_of_narrow _ ⟨minInt_le_maxInt _, le_refl _⟩,
    enc_bounds_unsigned s.cfg, fun hs _ hi => getLsbD_enc_bounds_signed s.cfg hs hi⟩

/-- `COPY` writes the raw word of its source (R76). -/
theorem execCopy_completes (rd rs1 : Reg) (s : State) :
    exec (.copy rd rs1) s = .next (s.writeReg rd (s.readReg rs1)) := rfl

/-- Settles O24: the word written is the one read, and writing it back to its own register changes nothing. -/
theorem copyIsVerbatim : Obligations.CopyIsVerbatim := fun rd rs1 s =>
  ⟨carries_encode (.copy rd rs1), execCopy_completes rd rs1 s,
    (execCopy_completes rd rd s).trans (congrArg _ (writeReg_readReg s rd))⟩

end Sys2Proof.Machine
end

section
/-! PROOFS. Masking (41_masking.md): `LOWMASK` at every width (R81), the masking function by its formula, its bits and
as an extension (R80), the laws of masking (R83) and the command `MASK` (R82). -/

namespace Sys2Proof.Machine

section LowMask

variable (c : Config)

/-- ONE shifted left by N is the storage word of `2^N` (R81). -/
theorem one_shiftLeft_N : BitVec.ofNat c.W.bits 1 <<< c.N = BitVec.ofNat c.W.bits (2 ^ c.N) := by
  apply BitVec.eq_of_toNat_eq
  simp only [BitVec.toNat_shiftLeft, BitVec.toNat_ofNat, Nat.shiftLeft_eq, Nat.mod_mul_mod, Nat.one_mul]

theorem getLsbD_ofNat_two_pow_N {i : Nat} (hi : i < c.W.bits) :
    (BitVec.ofNat c.W.bits (2 ^ c.N)).getLsbD i = decide (i = c.N) := by
  rw [BitVec.getLsbD_ofNat, Nat.testBit_two_pow, decide_eq_true hi, Bool.true_and, decide_eq_decide]
  exact eq_comm

/-- At the full width the shift overflows to zero (R81). -/
theorem ofNat_two_pow_full_width (h : c.N = c.W.bits) : BitVec.ofNat c.W.bits (2 ^ c.N) = 0 := by
  apply BitVec.eq_of_getLsbD_eq
  intro i hi
  rw [getLsbD_ofNat_two_pow_N c hi, BitVec.ofNat_eq_ofNat, BitVec.getLsbD_zero, decide_eq_false_iff_not]
  omega

end LowMask

/-- Settles O7, from the word `2^N`, which has bit N alone, or no bit at the full width. -/
theorem lowMaskIsRightAtFullWidth : Obligations.LowMaskIsRightAtFullWidth := fun c =>
  ⟨congrArg (· - BitVec.ofNat c.W.bits 1) (one_shiftLeft_N c), fun _ _ hi => getLsbD_ofNat_two_pow_N c hi,
    ofNat_two_pow_full_width c, fun _ => toNat_lowMask c,
    fun hfull => ⟨lowMask_full_width c hfull, mask_full_width c hfull⟩⟩

section Masking

variable (c : Config)

/-- The first two cases of R80: the unit is unsigned, or the sign bit is clear. -/
theorem mask_eq_and_lowMask {s : Word c} (h : (c.signed && s.getLsbD (c.N - 1)) = false) :
    mask c s = s &&& lowMask c := by
  rw [mask, signBit, h, if_neg Bool.false_ne_true]

/-- The last case of R80: the sign bit of a signed unit's word is set. -/
theorem mask_eq_or_not_lowMask {s : Word c} (h : (c.signed && s.getLsbD (c.N - 1)) = true) :
    mask c s = s ||| ~~~(lowMask c) := by
  rw [mask, signBit, if_pos h]

theorem getLsbD_mask_low (s : Word c) {i : Nat} (hi : i < c.N) : (mask c s).getLsbD i = s.getLsbD i := by
  rw [getLsbD_mask c s i (Nat.lt_of_lt_of_le hi c.N_le_W), if_pos hi]

theorem getLsbD_mask_high (s : Word c) {i : Nat} (hN : c.N ≤ i) (hW : i < c.W.bits) :
    (mask c s).getLsbD i = (c.signed && s.getLsbD (c.N - 1)) := by
  rw [getLsbD_mask c s i hW, if_neg (Nat.not_lt.mpr hN)]

/-- The third law of R83. -/
theorem lowSlice_mask (s : Word c) : (mask c s).extractLsb' 0 c.N = s.extractLsb' 0 c.N := by
  apply BitVec.eq_of_toNat_eq
  rw [toNat_lowSlice, toNat_lowSlice, toNat_mask_emod]

/-- The fifth law of R83, for every operator that acts on each bit position by one Boolean function with
`f 0 0 = 0`: below N masking keeps the bits, and from N up it puts zeros or copies of bit N−1. -/
theorem mask_bitwise {f : Bool → Bool → Bool} (h0 : f false false = false) {op : Word c → Word c → Word c}
    (hop : ∀ (s t : Word c) (i : Nat), (op s t).getLsbD i = f (s.getLsbD i) (t.getLsbD i)) (s t : Word c) :
    op (mask c s) (mask c t) = mask c (op s t) := by
  apply BitVec.eq_of_getLsbD_eq
  intro i hW
  rw [hop]
  rcases Nat.lt_or_ge i c.N with hN | hN
  · rw [getLsbD_mask_low c s hN, getLsbD_mask_low c t hN, getLsbD_mask_low c _ hN, hop]
  · rw [getLsbD_mask_high c s hN hW, getLsbD_mask_high c t hN hW, getLsbD_mask_high c _ hN hW, hop]
    cases c.signed with
    | false => exact h0
    | true => rfl

theorem mask_and (s t : Word c) : mask c s &&& mask c t = mask c (s &&& t) :=
  mask_bitwise c (f := and) rfl (fun _ _ _ => BitVec.getLsbD_and) s t

theorem mask_or (s t : Word c) : mask c s ||| mask c t = mask c (s ||| t) :=
  mask_bitwise c (f := or) rfl (fun _ _ _ => BitVec.getLsbD_or) s t

theorem mask_xor (s t : Word c) : mask c s ^^^ mask c t = mask c (s ^^^ t) :=
  mask_bitwise c (f := xor) rfl (fun _ _ _ => BitVec.getLsbD_xor) s t

end Masking

/-- Settles O8, from the cases of the formula and the bits of a masked word. -/
theorem maskExtendsTheLowBits : Obligations.MaskExtendsTheLowBits := fun c s =>
  ⟨fun hu => ⟨mask_eq_and_lowMask c (by rw [hu, Bool.false_and]), mask_unsigned c hu s⟩,
    fun _ hclear => mask_eq_and_lowMask c (by rw [hclear, Bool.and_false]),
    fun hs hset => mask_eq_or_not_lowMask c (by rw [hs, hset, Bool.and_self]),
    fun hs => mask_signed c hs s, fun _ hi => getLsbD_mask_low c s hi, fun _ hN hW => getLsbD_mask_high c s hN hW⟩

/-- Settles O9, one lemma per law. -/
theorem maskLaws : Obligations.MaskLaws := fun c s t =>
  ⟨mask_mask c s, mask_eq_self_iff c s, lowSlice_mask c s, value_eq_wrap c s, value_eq_wrap_nat c s,
    fun _ hlo hhi => mask_enc_of_narrow c ⟨hlo, hhi⟩, mask_and c s t, mask_or c s t, mask_xor c s t⟩

/-- `MASK` writes the masked word of its source, whatever it is (R82). -/
theorem execMask_completes (rd rs1 : Reg) (s : State) :
    exec (.mask rd rs1) s = .next (s.writeReg rd (mask s.cfg (s.readReg rs1))) := rfl

/-- On a canonical source `MASK` writes the word that `COPY` writes (R82). -/
theorem execMask_eq_execCopy_of_canonical {rd rs1 : Reg} {s : State}
    (h : mask s.cfg (s.readReg rs1) = s.readReg rs1) : exec (.mask rd rs1) s = exec (.copy rd rs1) s := by
  rw [execMask_completes, execCopy_completes, h]

/-- Settles O25: masking keeps the narrow value, and at the full width every source is canonical. -/
theorem maskCommandCanonicalises : Obligations.MaskCommandCanonicalises := fun rd rs1 s =>
  ⟨carries_encode (.mask rd rs1), execMask_completes rd rs1 s, value_mask s.cfg _,
    execMask_eq_execCopy_of_canonical, fun hfull => execMask_eq_execCopy_of_canonical (mask_full_width s.cfg hfull _)⟩

end Sys2Proof.Machine
end

section
/-! PROOFS. Add and subtract (42_arithmetic.md): how far an exact result leaves the narrow range and what wrapping does
about it (R95), the wrapping commands (R92, R93) and the checking ones (R90, R91). -/

namespace Sys2Proof.Machine

section Wrapping

variable (c : Config)

/-- The narrow range holds `2^N` integers (R9), in the spelling of R95. -/
theorem maxInt_add_one : maxInt c + 1 = minInt c + 2 ^ c.N := by
  have hcount : maxInt c - minInt c + 1 = 2 ^ c.N := by exact_mod_cast maxInt_sub_minInt c
  omega

theorem wrap_add_modulus (z : Int) : wrap c (z + 2 ^ c.N) = wrap c z := by
  apply wrap_congr
  push_cast
  exact Int.add_emod_right ..

/-- One modulus above the range wrapping subtracts it once (R95). -/
theorem wrap_of_above {z : Int} (hlo : maxInt c < z) (hhi : z ≤ maxInt c + 2 ^ c.N) : wrap c z = z - 2 ^ c.N := by
  have hnarrow : minInt c ≤ z - 2 ^ c.N ∧ z - 2 ^ c.N ≤ maxInt c := by
    have := maxInt_add_one c
    omega
  rw [← wrap_of_narrow c hnarrow, ← wrap_add_modulus c (z - 2 ^ c.N), Int.sub_add_cancel]

/-- One modulus below the range wrapping adds it once (R95). -/
theorem wrap_of_below {z : Int} (hlo : minInt c - 2 ^ c.N ≤ z) (hhi : z < minInt c) : wrap c z = z + 2 ^ c.N := by
  have hnarrow : minInt c ≤ z + 2 ^ c.N ∧ z + 2 ^ c.N ≤ maxInt c := by
    have := maxInt_add_one c
    omega
  rw [← wrap_of_narrow c hnarrow, wrap_add_modulus]

theorem wrap_maxInt_add_one : wrap c (maxInt c + 1) = minInt c := by
  have hcount := maxInt_add_one c
  have hle := minInt_le_maxInt c
  rw [wrap_of_above c (by omega) (by omega)]
  omega

theorem wrap_minInt_sub_one : wrap c (minInt c - 1) = maxInt c := by
  have hcount := maxInt_add_one c
  have hle := minInt_le_maxInt c
  rw [wrap_of_below c (by omega) (by omega)]
  omega

/-- In the signed unit `−MIN` is `MAX + 1` (R9). -/
theorem wrap_neg_minInt (h : c.signed = true) : wrap c (0 - minInt c) = minInt c := by
  have hneg : 0 - minInt c = maxInt c + 1 := by
    rw [minInt_signed c h, maxInt_signed c h]
    omega
  rw [hneg, wrap_maxInt_add_one]

end Wrapping

section ExactResults

variable (c : Config) (s t : Word c)

theorem zero_narrow : minInt c ≤ 0 ∧ 0 ≤ maxInt c := by
  have hnat : nat c 0 = 0 := by simp [nat]
  rw [← hnat]
  exact (mask_eq_self_iff c 0).mp (mask_zero c)

/-- An exact sum or difference of two narrow values is less than one modulus outside the range (R95). -/
theorem exact_result_bounds {r : Int} (hr : r = value c s + value c t ∨ r = value c s - value c t) :
    minInt c - 2 ^ c.N < r ∧ r < maxInt c + 2 ^ c.N := by
  have hs := value_bounds c s
  have ht := value_bounds c t
  have hzero := zero_narrow c
  have hcount := maxInt_add_one c
  omega

/-- An unsigned sum does not underflow (R95). -/
theorem minInt_le_add_of_unsigned (h : c.signed = false) : minInt c ≤ value c s + value c t := by
  have hs := value_bounds c s
  have ht := value_bounds c t
  rw [minInt_unsigned c h] at hs ht ⊢
  omega

/-- An unsigned difference does not overflow, and underflows when the first value is less (R95). -/
theorem sub_bounds_of_unsigned (h : c.signed = false) :
    value c s - value c t ≤ maxInt c ∧ (value c s - value c t < minInt c ↔ value c s < value c t) := by
  have hs := value_bounds c s
  have ht := value_bounds c t
  rw [minInt_unsigned c h] at hs ht ⊢
  omega

end ExactResults

/-- Settles O15: the result lies within one modulus of the range, where wrapping adds or subtracts it once. -/
theorem exactResultsWrapByOneModulus : Obligations.ExactResultsWrapByOneModulus := by
  intro c s t r hr
  obtain ⟨hlo, hhi⟩ := exact_result_bounds c s t hr
  exact ⟨hlo, hhi, fun habove => wrap_of_above c habove hhi.le, fun hbelow => wrap_of_below c hlo.le hbelow,
    fun hmin hmax => wrap_of_narrow c ⟨hmin, hmax⟩, fun hu hadd => hadd ▸ minInt_le_add_of_unsigned c s t hu,
    fun hu hsub => hsub ▸ sub_bounds_of_unsigned c s t hu⟩

section WordArithmetic

variable (c : Config)

theorem value_enc_of_narrow {z : Int} (h : minInt c ≤ z ∧ z ≤ maxInt c) : value c (enc c z) = z := by
  rw [value, mask_enc_of_narrow c h, nat_enc_of_narrow c h]

/-- The word of an integer keeps its residue modulo `2^N`, since `2^N` divides `2^W`. -/
theorem toNat_enc_emod (z : Int) : ((enc c z).toNat : Int) % ((2 ^ c.N : Nat) : Int) = z % ((2 ^ c.N : Nat) : Int) := by
  have hdvd : ((2 ^ c.N : Nat) : Int) ∣ ((2 ^ c.W.bits : Nat) : Int) := by exact_mod_cast pow_N_dvd_pow_W c
  have hpos : ((2 ^ c.W.bits : Nat) : Int) ≠ 0 := by exact_mod_cast (Nat.two_pow_pos _).ne'
  rw [enc, BitVec.toNat_ofInt, Int.toNat_of_nonneg (Int.emod_nonneg z hpos), Int.emod_emod_of_dvd z hdvd]

/-- Masking the word of an integer is wrapping the integer (R12). -/
theorem mask_enc (z : Int) : mask c (enc c z) = enc c (wrap c z) := by
  rw [mask_eq_enc_value, value_eq_wrap, wrap_congr c (toNat_enc_emod c z)]

/-- The wrapping sum is the word of the wrapped exact sum (R92). -/
theorem wrappingAdd_eq_enc_wrap (s t : Word c) : wrappingAdd c s t = enc c (wrap c (value c s + value c t)) := by
  rw [wrappingAdd, mask_eq_enc_value c s, mask_eq_enc_value c t, ← mask_enc]
  exact congrArg (mask c) (BitVec.ofInt_add ..).symm

/-- The wrapping difference is the word of the wrapped exact difference (R93). -/
theorem wrappingSub_eq_enc_wrap (s t : Word c) : wrappingSub c s t = enc c (wrap c (value c s - value c t)) := by
  rw [wrappingSub, mask_eq_enc_value c s, mask_eq_enc_value c t, ← mask_enc]
  rw [enc, enc, enc, Int.sub_eq_add_neg, BitVec.ofInt_add, BitVec.ofInt_neg, BitVec.sub_eq_add_neg]

/-- Masking the operands first does not change the wrapping sum (R92). -/
theorem wrappingAdd_eq_mask_add (s t : Word c) : wrappingAdd c s t = mask c (s + t) := by
  apply mask_eq_of_emod
  rw [BitVec.toNat_add, BitVec.toNat_add, Nat.mod_mod_of_dvd _ (pow_N_dvd_pow_W c),
    Nat.mod_mod_of_dvd _ (pow_N_dvd_pow_W c)]
  exact Nat.ModEq.add (toNat_mask_emod c s) (toNat_mask_emod c t)

theorem value_enc_wrap (z : Int) : value c (enc c (wrap c z)) = wrap c z := value_enc_of_narrow c (wrap_bounds c z)

theorem wrappingSub_self (s : Word c) : wrappingSub c s s = 0 := by
  rw [wrappingSub, BitVec.sub_self]
  exact mask_zero c

end WordArithmetic

section Commands

variable (rd rs1 rs2 : Reg) (s : State)

/-- `WADD` writes the wrapping sum of its sources, whatever they are (R92). -/
theorem execWadd_completes :
    exec (.wadd rd rs1 rs2) s = .next (s.writeReg rd (wrappingAdd s.cfg (s.readReg rs1) (s.readReg rs2))) := rfl

/-- `WSUB` writes the wrapping difference of its sources, whatever they are (R93). -/
theorem execWsub_completes :
    exec (.wsub rd rs1 rs2) s = .next (s.writeReg rd (wrappingSub s.cfg (s.readReg rs1) (s.readReg rs2))) := rfl

end Commands

/-- Settles O26, from the two forms of the wrapping sum. -/
theorem waddWrapsTheSum : Obligations.WaddWrapsTheSum := fun rd rs1 rs2 s =>
  ⟨wrappingAdd s.cfg (s.readReg rs1) (s.readReg rs2), execWadd_completes rd rs1 rs2 s, rfl,
    wrappingAdd_eq_mask_add s.cfg _ _, mask_mask s.cfg _,
    by rw [wrappingAdd_eq_enc_wrap, value_enc_wrap], wrap_maxInt_add_one s.cfg⟩

/-- Settles O27, from the integer form of the wrapping difference. -/
theorem wsubWrapsTheDifference : Obligations.WsubWrapsTheDifference := fun rd rs1 rs2 s =>
  ⟨wrappingSub s.cfg (s.readReg rs1) (s.readReg rs2), execWsub_completes rd rs1 rs2 s, rfl, mask_mask s.cfg _,
    by rw [wrappingSub_eq_enc_wrap, value_enc_wrap], wrap_minInt_sub_one s.cfg,
    fun heq => heq ▸ wrappingSub_self s.cfg _, wrap_neg_minInt s.cfg⟩

/-- What `ADD` and `SUB` do with their exact result r: the fault or the word of the wrapped result (R90, R91). -/
def checkedResult (rd : Reg) (s : State) (r : Int) : Result :=
  if overflows s.cfg r then raiseFatal .overflow s else completeWith rd s (enc s.cfg (wrap s.cfg r))

section Checked

variable (rd rs1 rs2 : Reg) (s : State) {r : Int}

theorem execAdd_eq_checkedResult :
    exec (.add rd rs1 rs2) s = checkedResult rd s (value s.cfg (s.readReg rs1) + value s.cfg (s.readReg rs2)) := by
  rw [checkedResult, ← wrappingAdd_eq_enc_wrap]
  rfl

theorem execSub_eq_checkedResult :
    exec (.sub rd rs1 rs2) s = checkedResult rd s (value s.cfg (s.readReg rs1) - value s.cfg (s.readReg rs2)) := by
  rw [checkedResult, ← wrappingSub_eq_enc_wrap]
  rfl

theorem checkedResult_outside (hchk : s.cfg.chk = true) (hout : maxInt s.cfg < r ∨ r < minInt s.cfg) :
    checkedResult rd s r = .next (s.takeFatal .overflow) :=
  if_pos ((overflows_iff s.cfg r).mpr ⟨hchk, hout.symm⟩)

theorem checkedResult_unchecked (hchk : s.cfg.chk = false) :
    checkedResult rd s r = .next (s.writeReg rd (enc s.cfg (wrap s.cfg r))) := by
  apply if_neg
  rw [overflows_iff, hchk]
  exact fun h => Bool.false_ne_true h.1

theorem checkedResult_narrow (hr : minInt s.cfg ≤ r ∧ r ≤ maxInt s.cfg) :
    checkedResult rd s r = .next (s.writeReg rd (enc s.cfg r)) := by
  rw [checkedResult, wrap_of_narrow s.cfg hr, if_neg]
  · rfl
  · rw [overflows_iff]
    omega

/-- A register less itself has the exact result 0, which every unit holds (R91). -/
theorem execSub_self : exec (.sub rd rs1 rs1) s = .next (s.writeReg rd 0) := by
  have hzero : enc s.cfg 0 = 0 := BitVec.ofInt_natCast s.cfg.W.bits 0
  rw [execSub_eq_checkedResult, Int.sub_self, checkedResult_narrow rd s (zero_narrow s.cfg), hzero]

/-- The clauses that R90 and R91 share: a command i that checks its exact result r, and the wrapping command j that
writes the word w of the wrapped result. -/
theorem checks_at_narrow_bounds {i j : Instr} {w : Word s.cfg} (hi : exec i s = checkedResult rd s r)
    (hj : exec j s = .next (s.writeReg rd w)) (hw : w = enc s.cfg (wrap s.cfg r)) :
    (s.cfg.chk = true → (maxInt s.cfg < r ∨ r < minInt s.cfg) → exec i s = .next (s.takeFatal .overflow)) ∧
    (minInt s.cfg ≤ r → r ≤ maxInt s.cfg → exec i s = .next (s.writeReg rd (enc s.cfg r)) ∧
      value s.cfg (enc s.cfg r) = r ∧ mask s.cfg (enc s.cfg r) = enc s.cfg r) ∧
    (s.cfg.chk = false → exec i s = .next (s.writeReg rd (enc s.cfg (wrap s.cfg r))) ∧
      enc s.cfg (wrap s.cfg r) = w ∧ exec i s = exec j s) := by
  subst hw
  rw [hi, hj]
  exact ⟨checkedResult_outside rd s,
    fun hlo hhi => ⟨checkedResult_narrow rd s ⟨hlo, hhi⟩, value_enc_of_narrow s.cfg ⟨hlo, hhi⟩,
      mask_enc_of_narrow s.cfg ⟨hlo, hhi⟩⟩,
    fun hchk => ⟨checkedResult_unchecked rd s hchk, rfl, checkedResult_unchecked rd s hchk⟩⟩

end Checked

/-- Settles O28, from what a checked unit and an unchecked one do with the exact sum. -/
theorem addChecksAtTheNarrowBounds : Obligations.AddChecksAtTheNarrowBounds := by
  rintro rd rs1 rs2 s r rfl
  exact ⟨carries_encode (.add rd rs1 rs2),
    checks_at_narrow_bounds rd s (execAdd_eq_checkedResult rd rs1 rs2 s) (execWadd_completes rd rs1 rs2 s)
      (wrappingAdd_eq_enc_wrap s.cfg _ _)⟩

/-- Settles O29, from what a checked unit and an unchecked one do with the exact difference. -/
theorem subChecksAtTheNarrowBounds : Obligations.SubChecksAtTheNarrowBounds := by
  rintro rd rs1 rs2 s r rfl
  obtain ⟨hfault, hnarrow, hwrap⟩ :=
    checks_at_narrow_bounds rd s (execSub_eq_checkedResult rd rs1 rs2 s) (execWsub_completes rd rs1 rs2 s)
      (wrappingSub_eq_enc_wrap s.cfg _ _)
  refine ⟨carries_encode (.sub rd rs1 rs2), hfault, hnarrow, hwrap, fun hu => ?_, execSub_self rd rs1 s⟩
  obtain ⟨hmax, hunderflow⟩ := sub_bounds_of_unsigned s.cfg (s.readReg rs1) (s.readReg rs2) hu
  rw [← hunderflow, or_iff_right hmax.not_gt]

end Sys2Proof.Machine
end

section
/-! PROOFS. The bitwise commands (43_bitwise.md): `AND`, `OR` and `XOR` (R101 to R103) from the fifth law of masking,
and `NOT` (R104) from the word of `−v − 1`, which is the complement of the word of v. -/

namespace Sys2Proof.Machine

section BinaryCommands

variable (rd rs1 rs2 : Reg) (s : State)

/-- `AND` writes the masked AND of its raw sources (R101). -/
theorem execAnd_completes :
    exec (.and rd rs1 rs2) s = .next (s.writeReg rd (mask s.cfg (s.readReg rs1 &&& s.readReg rs2))) :=
  congrArg (completeWith rd s) (mask_and s.cfg _ _)

/-- `OR` writes the masked OR of its raw sources (R102). -/
theorem execOr_completes :
    exec (.or rd rs1 rs2) s = .next (s.writeReg rd (mask s.cfg (s.readReg rs1 ||| s.readReg rs2))) :=
  congrArg (completeWith rd s) (mask_or s.cfg _ _)

/-- `XOR` writes the masked XOR of its raw sources (R103). -/
theorem execXor_completes :
    exec (.xor rd rs1 rs2) s = .next (s.writeReg rd (mask s.cfg (s.readReg rs1 ^^^ s.readReg rs2))) :=
  congrArg (completeWith rd s) (mask_xor s.cfg _ _)

theorem execAnd_self : exec (.and rd rs1 rs1) s = exec (.mask rd rs1) s := by
  rw [execAnd_completes, BitVec.and_self, execMask_completes]

theorem execOr_self : exec (.or rd rs1 rs1) s = exec (.mask rd rs1) s := by
  rw [execOr_completes, BitVec.or_self, execMask_completes]

theorem execXor_self : exec (.xor rd rs1 rs1) s = .next (s.writeReg rd 0) := by
  have hzero : mask s.cfg 0#s.cfg.W.bits = 0 := mask_zero s.cfg
  rw [execXor_completes, BitVec.xor_self, hzero]

end BinaryCommands

/-- Settles O30: the words written are the masked operators of the raw sources, and masking keeps their low N bits. -/
theorem bitwiseCommandsActBitByBit : Obligations.BitwiseCommandsActBitByBit := fun rd rs1 rs2 s =>
  ⟨_, _, _, execAnd_completes rd rs1 rs2 s, execOr_completes rd rs1 rs2 s, execXor_completes rd rs1 rs2 s,
    rfl, rfl, rfl, mask_mask s.cfg _, mask_mask s.cfg _, mask_mask s.cfg _,
    fun _ hi => ⟨(getLsbD_mask_low s.cfg _ hi).trans BitVec.getLsbD_and,
      (getLsbD_mask_low s.cfg _ hi).trans BitVec.getLsbD_or, (getLsbD_mask_low s.cfg _ hi).trans BitVec.getLsbD_xor⟩,
    execAnd_self rd rs1 s, execOr_self rd rs1 s, execXor_self rd rs1 s⟩

/-- The word that `NOT` writes: the complement of the masked word, masked again (R104). -/
def narrowNot (c : Config) (s : Word c) : Word c := mask c (~~~(mask c s))

theorem execNot_completes (rd rs1 : Reg) (s : State) :
    exec (.not rd rs1) s = .next (s.writeReg rd (narrowNot s.cfg (s.readReg rs1))) := rfl

section NarrowNot

variable (c : Config) (s : Word c)

/-- Every bit below N lies in the storage word, so the complement flips it. -/
theorem getLsbD_not_low {i : Nat} (hi : i < c.N) : (~~~s).getLsbD i = !s.getLsbD i := by
  rw [BitVec.getLsbD_not, decide_eq_true (Nat.lt_of_lt_of_le hi c.N_le_W), Bool.true_and]

theorem getLsbD_narrowNot_low {i : Nat} (hi : i < c.N) : (narrowNot c s).getLsbD i = !s.getLsbD i := by
  rw [narrowNot, getLsbD_mask_low c _ hi, getLsbD_not_low c _ hi, getLsbD_mask_low c s hi]

/-- A masked word depends on the low N bits alone (R80). -/
theorem mask_eq_of_lowBits {s t : Word c} (h : ∀ i, i < c.N → s.getLsbD i = t.getLsbD i) : mask c s = mask c t := by
  apply BitVec.eq_of_getLsbD_eq
  intro i hW
  rcases Nat.lt_or_ge i c.N with hN | hN
  · rw [getLsbD_mask_low c s hN, getLsbD_mask_low c t hN, h i hN]
  · rw [getLsbD_mask_high c s hN hW, getLsbD_mask_high c t hN hW, h _ (Nat.sub_one_lt_of_lt c.one_le_N)]

/-- `NOT` twice flips every low bit back, so it is `MASK` (R104). -/
theorem narrowNot_narrowNot : narrowNot c (narrowNot c s) = mask c s := by
  apply mask_eq_of_lowBits
  intro i hi
  rw [getLsbD_not_low c _ hi, getLsbD_mask_low c _ hi, getLsbD_narrowNot_low c s hi, Bool.not_not]

/-- At the full width masking changes no word, and `NOT` is the plain complement (R104). -/
theorem narrowNot_full_width (h : c.N = c.W.bits) : narrowNot c s = ~~~s := by
  rw [narrowNot, mask_full_width c h, mask_full_width c h]

/-- The complement of the word of z is the word of `−z − 1` (two's complement). -/
theorem not_enc (z : Int) : ~~~(enc c z) = enc c (-z - 1) := by
  rw [BitVec.not_eq_neg_add, BitVec.sub_eq_add_neg, enc, enc, Int.sub_eq_add_neg, BitVec.ofInt_add, BitVec.ofInt_neg,
    BitVec.ofInt_neg]
  rfl

theorem not_mask : ~~~(mask c s) = enc c (-(value c s) - 1) := by
  rw [mask_eq_enc_value, not_enc]

theorem narrowNot_eq_enc_wrap : narrowNot c s = enc c (wrap c (-(value c s) - 1)) := by
  rw [narrowNot, not_mask, mask_enc]

theorem value_narrowNot : value c (narrowNot c s) = wrap c (-(value c s) - 1) := by
  rw [narrowNot_eq_enc_wrap, value_enc_wrap]

/-- In the unsigned unit `−v − 1` lies below 0 and wraps to `MAX − v` (R104). -/
theorem value_narrowNot_unsigned (h : c.signed = false) : value c (narrowNot c s) = maxInt c - value c s := by
  have hv := value_bounds c s
  have hmin := minInt_unsigned c h
  have hcount := maxInt_add_one c
  rw [value_narrowNot, wrap_of_below c (by omega) (by omega)]
  omega

/-- In the signed unit `MIN = −MAX − 1`, so `−v − 1` is in the narrow range whenever v is (R104). -/
theorem neg_sub_one_narrow (h : c.signed = true) :
    minInt c ≤ -(value c s) - 1 ∧ -(value c s) - 1 ≤ maxInt c := by
  have hv := value_bounds c s
  rw [minInt_signed c h, maxInt_signed c h] at hv ⊢
  omega

theorem value_narrowNot_signed (h : c.signed = true) : value c (narrowNot c s) = -(value c s) - 1 := by
  rw [value_narrowNot, wrap_of_narrow c (neg_sub_one_narrow c s h)]

/-- In the signed unit the complement is already canonical (90_conflicts.md C2). -/
theorem narrowNot_signed (h : c.signed = true) : narrowNot c s = ~~~(mask c s) := by
  rw [narrowNot_eq_enc_wrap, wrap_of_narrow c (neg_sub_one_narrow c s h), not_mask]

end NarrowNot

/-- Settles O31, from the low bits of the complement and from its integer form `−v − 1`. -/
theorem notComplementsTheNarrowBits : Obligations.NotComplementsTheNarrowBits := fun rd rs1 s =>
  ⟨narrowNot s.cfg (s.readReg rs1), execNot_completes rd rs1 s, rfl, mask_mask s.cfg _,
    fun _ hi => getLsbD_narrowNot_low s.cfg _ hi, value_narrowNot_unsigned s.cfg _,
    fun hs => ⟨value_narrowNot_signed s.cfg _ hs, narrowNot_signed s.cfg _ hs⟩, narrowNot_narrowNot s.cfg _,
    narrowNot_full_width s.cfg _⟩

end Sys2Proof.Machine
end

section
/-! PROOFS. The shift commands (44_shift.md): the word shifts as integer operations (R109), the wrapped product of
`SHL` (R110), the floored quotient of `SHR` (R111, R113), and the amounts that fault (R112). -/

namespace Sys2Proof.Machine

section WordShifts

variable (c : Config) (s : Word c) (k : Nat)

theorem nat_unsigned (h : c.signed = false) : nat c s = s.toNat := by simp [nat, h]

theorem nat_signed (h : c.signed = true) : nat c s = s.toInt := by simp [nat, h]

theorem toNat_shiftLeftWord : (shiftLeftWord c s k).toNat = (s.toNat * 2 ^ k) % 2 ^ c.W.bits := by
  rw [shiftLeftWord, BitVec.toNat_shiftLeft, Nat.shiftLeft_eq]

theorem toNat_shiftRightWord (h : c.signed = false) : (shiftRightWord c s k).toNat = s.toNat / 2 ^ k := by
  rw [shiftRightWord, h, if_neg Bool.false_ne_true, BitVec.toNat_ushiftRight, Nat.shiftRight_eq_div_pow]

theorem toInt_shiftRightWord (h : c.signed = true) : (shiftRightWord c s k).toInt = s.toInt / 2 ^ k := by
  rw [shiftRightWord, if_pos h, BitVec.toInt_sshiftRight, Int.shiftRight_eq_div_pow, Int.natCast_pow,
    Nat.cast_ofNat]

/-- In both kinds the right shift floors the native reading divided by `2^k` (R109, G1). -/
theorem nat_shiftRightWord : nat c (shiftRightWord c s k) = nat c s / 2 ^ k := by
  cases h : c.signed with
  | false =>
    rw [nat_unsigned c _ h, nat_unsigned c _ h, toNat_shiftRightWord c s k h, Int.natCast_ediv, Int.natCast_pow,
      Nat.cast_ofNat]
  | true => rw [nat_signed c _ h, nat_signed c _ h, toInt_shiftRightWord c s k h]

theorem shiftLeftWord_zero : shiftLeftWord c s 0 = s := BitVec.shiftLeft_zero s

theorem shiftRightWord_zero : shiftRightWord c s 0 = s :=
  nat_injective c (by rw [nat_shiftRightWord, pow_zero, Int.ediv_one])

end WordShifts

/-- Settles O14, from the native readings of the shifted words; a signed word is the word of its native reading. -/
theorem wordShiftsOnIntegers : Obligations.WordShiftsOnIntegers := by
  intro c s k _
  refine ⟨toNat_shiftLeftWord c s k, toNat_shiftRightWord c s k, fun h => ?_⟩
  rw [← toInt_shiftRightWord c s k h]
  exact BitVec.ofInt_toInt.symm

section LeftShift

variable (c : Config) (s : Word c) (k : Nat)

/-- The left shift multiplies modulo `2^W`, hence also modulo `2^N` (R110). -/
theorem value_shiftLeftWord : value c (shiftLeftWord c s k) = wrap c (value c s * 2 ^ k) := by
  have hdvd : ((2 ^ c.N : Nat) : Int) ∣ ((2 ^ c.W.bits : Nat) : Int) := by exact_mod_cast pow_N_dvd_pow_W c
  have hmul : value c s * 2 ^ k ≡ (s.toNat : Int) * 2 ^ k [ZMOD ((2 ^ c.N : Nat) : Int)] :=
    Int.ModEq.mul_right _ (value_emod c s)
  rw [value_eq_wrap, toNat_shiftLeftWord, Int.natCast_emod, Int.natCast_mul]
  apply wrap_congr
  rw [Int.emod_emod_of_dvd _ hdvd]
  exact_mod_cast hmul.symm

/-- A left shift by N or more leaves no bit of the source below N (R110). -/
theorem mask_shiftLeftWord_of_N_le (h : c.N ≤ k) : mask c (shiftLeftWord c s k) = 0 := by
  rw [← mask_zero c]
  apply mask_eq_of_lowBits
  intro i hi
  simp [shiftLeftWord, Nat.lt_of_lt_of_le hi h]

end LeftShift

theorem execShl_zero (rd rs1 : Reg) (s : State) : exec (.shl rd rs1 0) s = exec (.mask rd rs1) s := by
  rw [execShl_completes rd rs1 0 s (width_pos s.cfg), execMask_completes]
  exact congrArg (completeWith rd s) ((congrArg _ (shiftLeftWord_zero _ _)).trans (mask_mask _ _))

/-- Settles O32: the narrow value is the wrapped product, and masking cuts a shift by N or more to 0. -/
theorem shlMultipliesAndWraps : Obligations.ShlMultipliesAndWraps := fun rd rs1 k s =>
  ⟨carries_encode (.shl rd rs1 k),
    fun hk => ⟨_, execShl_completes rd rs1 k s hk, rfl, mask_mask s.cfg _,
      by rw [value_mask, value_shiftLeftWord, State.readMasked, value_mask],
      mask_shiftLeftWord_of_N_le s.cfg _ k.toNat, fun hzero => hzero ▸ execShl_zero rd rs1 s⟩,
    execShl_faults rd rs1 k s⟩

section RightShift

variable (c : Config) (s : Word c) {k : Nat}

/-- A floored quotient by `2^k` of an integer of the narrow range is in the narrow range, which holds 0 (R113). -/
theorem ediv_two_pow_narrow {z : Int} (h : minInt c ≤ z ∧ z ≤ maxInt c) (k : Nat) :
    minInt c ≤ z / 2 ^ k ∧ z / 2 ^ k ≤ maxInt c := by
  obtain ⟨hmin, hmax⟩ := zero_narrow c
  have hpow : (1 : Int) ≤ 2 ^ k := one_le_pow₀ (by norm_num)
  constructor
  · exact Int.le_ediv_of_mul_le (by omega) (by nlinarith)
  · rw [Int.ediv_le_iff_le_mul (by omega)]
    nlinarith

/-- The right shift of a masked word is canonical, so masking the result of `SHR` changes nothing (R113). -/
theorem mask_shiftRightWord_mask (k : Nat) :
    mask c (shiftRightWord c (mask c s) k) = shiftRightWord c (mask c s) k := by
  rw [mask_eq_self_iff, nat_shiftRightWord]
  exact ediv_two_pow_narrow c (value_bounds c s) k

/-- The right shift of a masked word floors the narrow value divided by `2^k` (R111). -/
theorem value_shiftRightWord_mask (k : Nat) :
    value c (shiftRightWord c (mask c s) k) = value c s / 2 ^ k := by
  rw [value, mask_shiftRightWord_mask, nat_shiftRightWord]
  rfl

/-- The amounts from which `SHR` has shifted out every bit but the sign: N, and N − 1 in the signed unit (R111). -/
theorem narrow_within_two_pow (h : c.N ≤ k ∨ (c.signed = true ∧ c.N = k + 1)) :
    -(2 ^ k) ≤ minInt c ∧ maxInt c < 2 ^ k := by
  cases hs : c.signed with
  | false =>
    have hN : c.N ≤ k := h.resolve_right (by simp [hs])
    have hpow : (2 : Int) ^ c.N ≤ 2 ^ k := pow_le_pow_right₀ (by norm_num) hN
    have hpos : (0 : Int) < 2 ^ c.N := by positivity
    rw [minInt_unsigned c hs, maxInt_unsigned c hs]
    omega
  | true =>
    have hpow : (2 : Int) ^ (c.N - 1) ≤ 2 ^ k := pow_le_pow_right₀ (by norm_num) (by omega)
    rw [minInt_signed c hs, maxInt_signed c hs]
    omega

/-- The floored quotient of a magnitude that `2^k` bounds is the sign alone (R111). -/
theorem ediv_two_pow_eq_sign {z : Int} (hlo : -(2 ^ k) ≤ z) (hhi : z < 2 ^ k) :
    z / 2 ^ k = if z < 0 then -1 else 0 := by
  split
  case isTrue hneg => exact Int.ediv_eq_neg_one_of_neg_of_le hneg (by omega)
  case isFalse hneg => exact Int.ediv_eq_zero_of_lt (by omega) hhi

theorem value_ediv_two_pow_eq_sign (h : c.N ≤ k ∨ (c.signed = true ∧ c.N = k + 1)) :
    value c s / 2 ^ k = if value c s < 0 then -1 else 0 := by
  obtain ⟨hmin, hmax⟩ := narrow_within_two_pow c h
  obtain ⟨hlo, hhi⟩ := value_bounds c s
  exact ediv_two_pow_eq_sign (hmin.trans hlo) (hhi.trans_lt hmax)

end RightShift

section Shr

variable (rd rs1 : Reg) (k : Imm8) (s : State)

/-- `SHR` by less than W writes the right shift of the masked source as it is (R111, R113). -/
theorem execShr_writes_shiftRightWord (h : k.toNat < s.cfg.W.bits) : exec (.shr rd rs1 k) s =
    .next (s.writeReg rd (shiftRightWord s.cfg (mask s.cfg (s.readReg rs1)) k.toNat)) :=
  (execShr_completes rd rs1 k s h).trans (congrArg (completeWith rd s) (mask_shiftRightWord_mask s.cfg _ _))

theorem execShr_zero : exec (.shr rd rs1 0) s = exec (.mask rd rs1) s := by
  rw [execShr_writes_shiftRightWord rd rs1 0 s (width_pos s.cfg), execMask_completes]
  exact congrArg (completeWith rd s) (shiftRightWord_zero _ _)

end Shr

/-- Settles O33: the right shift of the masked source is canonical and floors the narrow value divided by `2^k`. -/
theorem shrDividesTheNarrowValue : Obligations.ShrDividesTheNarrowValue := fun rd rs1 k s =>
  ⟨fun hk => ⟨_, execShr_writes_shiftRightWord rd rs1 k s hk, rfl, mask_shiftRightWord_mask s.cfg _ _,
      value_shiftRightWord_mask s.cfg _ _,
      fun hsign => (value_shiftRightWord_mask s.cfg _ _).trans (value_ediv_two_pow_eq_sign s.cfg _ hsign),
      fun hzero => hzero ▸ execShr_zero rd rs1 s⟩,
    execShr_faults rd rs1 k s⟩

/-- What a shift can do: it takes SHIFT from amount W on, and below W it writes its destination (R112). -/
theorem shift_cases {rd rs1 : Reg} {k : Imm8} {i : Instr} (hi : i = .shl rd rs1 k ∨ i = .shr rd rs1 k) (s : State) :
    (s.cfg.W.bits ≤ k.toNat ∧ exec i s = .next (s.takeFatal .shift)) ∨
    (k.toNat < s.cfg.W.bits ∧ ∃ v, exec i s = .next (s.writeReg rd v)) := by
  rcases Nat.lt_or_ge k.toNat s.cfg.W.bits with hk | hk
  · rcases hi with rfl | rfl
    · exact .inr ⟨hk, _, execShl_completes rd rs1 k s hk⟩
    · exact .inr ⟨hk, _, execShr_completes rd rs1 k s hk⟩
  · rcases hi with rfl | rfl
    · exact .inl ⟨hk, execShl_faults rd rs1 k s hk⟩
    · exact .inl ⟨hk, execShr_faults rd rs1 k s hk⟩

/-- Settles O34: a fault sets HALT and writes no register, and a register write leaves HALT as it was. -/
theorem shiftFaultsExactlyFromStorageWidth : Obligations.ShiftFaultsExactlyFromStorageWidth := by
  intro rd rs1 k s i hi hrunning
  rcases shift_cases hi s with ⟨hk, hx⟩ | ⟨hk, v, hx⟩
  · refine ⟨⟨fun _ => hk, fun _ => ⟨_, hx, rfl⟩⟩, fun t ht _ => ?_⟩
    obtain rfl : s.takeFatal .shift = t := Host.Outcome.next.inj (hx.symm.trans ht)
    exact ⟨rfl, _, _, rfl⟩
  · have hstays : ∀ t, exec i s = .next t → t.status.halt ≠ true := by
      intro t ht
      obtain rfl : s.writeReg rd v = t := Host.Outcome.next.inj (hx.symm.trans ht)
      simp [hrunning]
    refine ⟨⟨?_, fun hle => absurd hk hle.not_gt⟩, fun t ht hhalt => absurd hhalt (hstays t ht)⟩
    rintro ⟨t, ht, hhalt⟩
    exact absurd hhalt (hstays t ht)

end Sys2Proof.Machine
end

section
/-! PROOFS. Comparison (45_compare.md): the three flags of `CMP` as the order of the narrow values (R120), the operators
that software reads from them (R121), and equality as values as agreement of the low N bits (R122, R124). -/

namespace Sys2Proof.Machine

/-- Masking keeps the low N bits, and the low N bits determine the masked word (R122). -/
theorem equalAsValues_iff_lowSlice_eq (c : Config) {s t : Word c} :
    equalAsValues c s t ↔ s.extractLsb' 0 c.N = t.extractLsb' 0 c.N := by
  refine (mask_eq_iff_value_eq c).symm.trans ⟨fun hmask => ?_, fun hlow => mask_eq_of_emod c ?_⟩
  · rw [← lowSlice_mask c s, hmask, lowSlice_mask]
  · rw [← toNat_lowSlice, hlow, toNat_lowSlice]

/-- `GET` writes the masked word of its source to `DOUT` and nothing else (R130). -/
theorem execGet_completes (rs1 : Reg) (s : State) :
    exec (.get rs1) s = .next (s.writeDout (mask s.cfg (s.readReg rs1))) := rfl

/-- Settles O13: the low N bits decide the masked word, and the masked word is all that `GET` uses of a register. -/
theorem equalAsValuesMeansEqualLowBits : Obligations.EqualAsValuesMeansEqualLowBits := by
  refine ⟨fun c s t => ⟨equalAsValues_iff_lowSlice_eq c, (mask_eq_iff_value_eq c).symm⟩, fun a b s h => ?_⟩
  rw [execGet_completes, execGet_completes, (mask_eq_iff_value_eq s.cfg).mpr h]

section Flags

variable (f : Status) (c : Config) (s t : Word c)

@[simp] theorem compare_flag_eq_iff : (f.compare c s t).eq = true ↔ value c s = value c t := decide_eq_true_iff

@[simp] theorem compare_flag_lt_iff : (f.compare c s t).lt = true ↔ value c s < value c t := decide_eq_true_iff

@[simp] theorem compare_flag_gt_iff : (f.compare c s t).gt = true ↔ value c t < value c s := decide_eq_true_iff

/-- The order of the narrow values is total, so a comparison sets exactly one of its flags (R120). -/
theorem compare_cases :
    (value c s < value c t ∧ f.compare c s t = { f with eq := false, lt := true, gt := false }) ∨
    (value c s = value c t ∧ f.compare c s t = { f with eq := true, lt := false, gt := false }) ∨
    (value c t < value c s ∧ f.compare c s t = { f with eq := false, lt := false, gt := true }) := by
  rcases lt_trichotomy (value c s) (value c t) with h | h | h
  · exact .inl ⟨h, by simp [Status.compare, h, h.ne, h.not_gt]⟩
  · exact .inr (.inl ⟨h, by simp [Status.compare, h]⟩)
  · exact .inr (.inr ⟨h, by simp [Status.compare, h, h.ne', h.not_gt]⟩)

theorem compare_sets_one_flag :
    ((f.compare c s t).eq, (f.compare c s t).lt, (f.compare c s t).gt) = (true, false, false) ∨
    ((f.compare c s t).eq, (f.compare c s t).lt, (f.compare c s t).gt) = (false, true, false) ∨
    ((f.compare c s t).eq, (f.compare c s t).lt, (f.compare c s t).gt) = (false, false, true) := by
  rcases compare_cases f c s t with ⟨_, hflags⟩ | ⟨_, hflags⟩ | ⟨_, hflags⟩ <;> simp [hflags]

/-- The unsigned unit's order is the unsigned comparison of the masked words (R120). -/
theorem compare_lt_unsigned (h : c.signed = false) : (f.compare c s t).lt = (mask c s).ult (mask c t) := by
  rw [Bool.eq_iff_iff, compare_flag_lt_iff, BitVec.ult_iff_lt, BitVec.lt_def, value, value, nat_unsigned c _ h,
    nat_unsigned c _ h, Int.ofNat_lt]

/-- The signed unit's order is the two's complement comparison of the masked words (R120). -/
theorem compare_lt_signed (h : c.signed = true) : (f.compare c s t).lt = (mask c s).slt (mask c t) := by
  rw [Bool.eq_iff_iff, compare_flag_lt_iff, BitVec.slt_iff_toInt_lt, value, value, nat_signed c _ h, nat_signed c _ h]

/-- Each operator is read from one flag: three as the flag stands, and `ne`, `le`, `ge` from its complement (R121). -/
theorem compare_holds_iff (op : CmpOp) :
    (f.compare c s t).holds op = true ↔ op.holdsOn (value c s) (value c t) := by
  cases op with
  | eq => exact compare_flag_eq_iff f c s t
  | lt => exact compare_flag_lt_iff f c s t
  | gt => exact compare_flag_gt_iff f c s t
  | ne | le | ge => simp [Status.holds, CmpOp.holdsOn, ← Bool.not_eq_true]

/-- The three-way result is read from the one flag that is set (R121). -/
theorem compare_ordering : (f.compare c s t).ordering = some (compare (value c s) (value c t)) := by
  rcases compare_cases f c s t with ⟨h, hflags⟩ | ⟨h, hflags⟩ | ⟨h, hflags⟩
  · rw [hflags, compare_lt_iff_lt.mpr h]
    rfl
  · rw [hflags, compare_eq_iff_eq.mpr h]
    rfl
  · rw [hflags, compare_gt_iff_gt.mpr h]
    rfl

end Flags

/-- `CMP` writes the comparison flags of its sources and nothing else (R120). -/
theorem execCmp_completes (rs1 rs2 : Reg) (s : State) : exec (.cmp rs1 rs2) s =
    .next (s.writeStatus (s.status.compare s.cfg (s.readReg rs1) (s.readReg rs2))) := rfl

/-- Settles O35, flag by flag: `CMP` always completes, and its flags are the order of the narrow values. -/
theorem cmpOrdersTheNarrowValues : Obligations.CmpOrdersTheNarrowValues := by
  rintro rs1 rs2 s _ _ rfl rfl
  refine ⟨_, execCmp_completes rs1 rs2 s, rfl, rfl, rfl, compare_flag_eq_iff .., compare_flag_lt_iff ..,
    compare_flag_gt_iff .., compare_sets_one_flag .., compare_lt_unsigned _ _ _ _, compare_lt_signed _ _ _ _,
    fun hsame => ?_⟩
  rw [compare_flag_eq_iff, hsame]

/-- Settles O36: the next state of `CMP` holds the comparison flags of the two registers. -/
theorem flagsReadAsComparisonOperators : Obligations.FlagsReadAsComparisonOperators := by
  intro rs1 rs2 s t ht
  obtain rfl := Host.Outcome.next.inj ((execCmp_completes rs1 rs2 s).symm.trans ht)
  exact ⟨compare_holds_iff s.status s.cfg _ _, compare_ordering s.status s.cfg _ _⟩

end Sys2Proof.Machine
end

section
/-! PROOFS. Extraction and conversion (46_conversion.md): `GET` and the wider native types (R130), construction followed
by extraction (S3), the native types whose whole range fits (R131), and fallible narrowing (R132, R133). -/

namespace Sys2Proof.Machine

/-- Extending a storage word as the unit's kind does keeps its native reading (R130). -/
theorem natOfWidth_widened (c : Config) (d : Word c) {w : Nat} (hw : c.W.bits ≤ w) :
    natOfWidth c (widened c d w) = nat c d := by
  unfold natOfWidth widened nat
  cases c.signed with
  | false => exact congrArg Int.ofNat (BitVec.toNat_setWidth_of_le hw)
  | true => exact BitVec.toInt_signExtend_of_le hw

/-- Settles O37: the narrow value is by definition the native reading of the masked word, which extending keeps. -/
theorem getDeliversTheNarrowValue : Obligations.GetDeliversTheNarrowValue := fun rs1 s =>
  ⟨_, execGet_completes rs1 s, rfl, mask_mask s.cfg _, rfl, fun _ hw => natOfWidth_widened s.cfg _ hw⟩

/-- The narrow value of a word in range is its native reading (R69). -/
theorem value_of_inRange (c : Config) {d : Word c} (h : minInt c ≤ nat c d ∧ nat c d ≤ maxInt c) :
    value c d = nat c d :=
  congrArg (nat c) ((mask_eq_self_iff c d).mpr h)

/-- `NEW`, `TRYNEW` and `TNEW` all write an operand in range as it is; they differ in `STATUS` alone (R70 to R72). -/
theorem construction_inRange {rd : Reg} {i : Instr} (hi : i = .new rd ∨ i = .tryNew rd ∨ i = .tNew rd) (s : State)
    (h : minInt s.cfg ≤ nat s.cfg s.din ∧ nat s.cfg s.din ≤ maxInt s.cfg) :
    ∃ f, exec i s = .next ((s.writeReg rd s.din).writeStatus f) := by
  rcases hi with rfl | rfl | rfl
  · exact ⟨s.status, execNew_inRange rd s h⟩
  · exact ⟨_, execTryNew_inRange rd s h⟩
  · have hmask : mask s.cfg s.din = s.din := (mask_eq_self_iff _ _).mpr h
    exact ⟨s.status, (execTNew_completes rd s).trans (congrArg (completeWith rd s) hmask)⟩

/-- Settles O38: the register then holds the operand, whose narrow value `GET` delivers. -/
theorem constructThenGetReturnsTheOperand : Obligations.ConstructThenGetReturnsTheOperand := by
  intro rd s i hi hlo hhi
  obtain ⟨f, hexec⟩ := construction_inRange hi s ⟨hlo, hhi⟩
  have hread : State.readReg ((s.writeReg rd s.din).writeStatus f) rd = s.din := readReg_writeReg_self s rd s.din
  exact ⟨_, _, hexec, execGet_completes rd _, rfl,
    (congrArg (value s.cfg) hread).trans (value_of_inRange s.cfg ⟨hlo, hhi⟩)⟩

section Lossless

variable (c : Config) {w : Nat} (v : BitVec w)

theorem dinOfUnsigned_eq_enc : dinOfUnsigned c v = enc c v.toNat :=
  (BitVec.ofNat_toNat c.W.bits v).symm.trans (BitVec.ofInt_natCast _ _).symm

theorem dinOfSigned_eq_enc : dinOfSigned c v = enc c v.toInt := rfl

/-- An unsigned type of at most N bits fits the unsigned unit (R131). -/
theorem toNat_narrow_unsigned (h : c.signed = false) (hw : w ≤ c.N) : minInt c ≤ v.toNat ∧ v.toNat ≤ maxInt c := by
  have hlt : (v.toNat : Int) < 2 ^ w := by exact_mod_cast v.isLt
  have hpow : (2 : Int) ^ w ≤ 2 ^ c.N := pow_le_pow_right₀ (by norm_num) hw
  rw [minInt_unsigned c h, maxInt_unsigned c h]
  omega

/-- An unsigned type of at most N − 1 bits fits the signed unit (R131). -/
theorem toNat_narrow_signed (h : c.signed = true) (hw : w ≤ c.N - 1) : minInt c ≤ v.toNat ∧ v.toNat ≤ maxInt c := by
  have hlt : (v.toNat : Int) < 2 ^ w := by exact_mod_cast v.isLt
  have hpow : (2 : Int) ^ w ≤ 2 ^ (c.N - 1) := pow_le_pow_right₀ (by norm_num) hw
  rw [minInt_signed c h, maxInt_signed c h]
  omega

/-- A signed type of at most N bits fits the signed unit (R131). -/
theorem toInt_narrow_signed (h : c.signed = true) (hw : w ≤ c.N) : minInt c ≤ v.toInt ∧ v.toInt ≤ maxInt c := by
  have hlo : -2 ^ (w - 1) ≤ v.toInt := BitVec.le_toInt v
  have hhi : v.toInt < 2 ^ (w - 1) := BitVec.toInt_lt
  have hpow : (2 : Int) ^ (w - 1) ≤ 2 ^ (c.N - 1) := pow_le_pow_right₀ (by norm_num) (Nat.sub_le_sub_right hw 1)
  rw [minInt_signed c h, maxInt_signed c h]
  omega

end Lossless

/-- `NEW` of the storage word of an integer of the narrow range completes and the word stands for that integer. -/
theorem execNew_enc_of_narrow (rd : Reg) {s : State} {z : Int} (hdin : s.din = enc s.cfg z)
    (h : minInt s.cfg ≤ z ∧ z ≤ maxInt s.cfg) :
    exec (.new rd) s = .next (s.writeReg rd s.din) ∧ value s.cfg s.din = z := by
  have hnat : nat s.cfg s.din = z := hdin ▸ nat_enc_of_narrow s.cfg h
  exact ⟨execNew_inRange rd s (hnat.symm ▸ h), hdin ▸ value_enc_of_narrow s.cfg h⟩

/-- Settles O59: the extended value is the storage word of its integer, which each type keeps in the narrow range. -/
theorem losslessConversionsNeverFault : Obligations.LosslessConversionsNeverFault := fun rd s _ v =>
  ⟨fun hu hw hdin => execNew_enc_of_narrow rd (hdin.trans (dinOfUnsigned_eq_enc s.cfg v))
      (toNat_narrow_unsigned s.cfg v hu hw),
    fun hs hw hdin => execNew_enc_of_narrow rd (hdin.trans (dinOfSigned_eq_enc s.cfg v))
      (toInt_narrow_signed s.cfg v hs hw),
    fun hs hw hdin => execNew_enc_of_narrow rd (hdin.trans (dinOfUnsigned_eq_enc s.cfg v))
      (toNat_narrow_signed s.cfg v hs hw)⟩

/-- The unit of the same kind with N = W. Its narrow range is the range of the storage type, so that what holds of the
narrow range of every unit holds of the storage type. -/
def storageUnit (c : Config) : Config := { c with N := c.W.bits, one_le_N := width_pos c, N_le_W := le_refl _ }

section Representable

variable (c : Config) {z : Int}

theorem representable_eq_fitsNarrow_storageUnit : representable c z = fitsNarrow (storageUnit c) z := rfl

/-- An integer representable in the storage type is the native reading of its word (R133). -/
theorem nat_enc_of_representable (h : representable c z = true) : nat c (enc c z) = z :=
  nat_enc_of_narrow (storageUnit c) ((fitsNarrow_iff _ z).mp h)

/-- The narrow range lies inside the range of the storage type (R133). -/
theorem representable_of_narrow (h : minInt c ≤ z ∧ z ≤ maxInt c) : representable c z = true := by
  have hfull := nat_bounds_full_width (storageUnit c) rfl (enc c z)
  rw [representable_eq_fitsNarrow_storageUnit, fitsNarrow_iff]
  rwa [show nat (storageUnit c) (enc c z) = z from nat_enc_of_narrow c h] at hfull

end Representable

/-- The state in which the host presents an integer to `TRYNEW` (R133). -/
def State.offering (s : State) (z : Int) : State := { s with din := enc s.cfg z }

section Narrowing

variable (rd : Reg) {z : Int} (s : State)

/-- For an integer representable in the storage type the answer is what `TRYNEW` leaves in RERR (R133). -/
theorem narrowInto_of_execTryNew (hrep : representable s.cfg z = true) {t : State}
    (ht : exec (.tryNew rd) (s.offering z) = .next t) :
    narrowInto rd z s = if t.status.rerr then none else some t := by
  have htry : execTryNew rd { s with din := enc s.cfg z } = .next t := ht
  rw [narrowInto, if_pos hrep, htry]

/-- An integer of the narrow range is written, and RERR is cleared (R132, R133). -/
theorem narrowInto_of_narrow (h : minInt s.cfg ≤ z ∧ z ≤ maxInt s.cfg) : narrowInto rd z s =
    some (((s.offering z).writeReg rd (enc s.cfg z)).writeStatus { s.status with rerr := false }) := by
  have hrep := representable_of_narrow s.cfg h
  have hdin : nat s.cfg (s.offering z).din = z := nat_enc_of_representable s.cfg hrep
  exact narrowInto_of_execTryNew rd s hrep (execTryNew_inRange rd (s.offering z) (hdin.symm ▸ h))

/-- An integer outside the narrow range is the error, by the host's test or by RERR (R132, R133). -/
theorem narrowInto_outside (h : ¬(minInt s.cfg ≤ z ∧ z ≤ maxInt s.cfg)) : narrowInto rd z s = none := by
  cases hrep : representable s.cfg z with
  | false => rw [narrowInto, hrep, if_neg Bool.false_ne_true]
  | true =>
    have hdin : nat s.cfg (s.offering z).din = z := nat_enc_of_representable s.cfg hrep
    exact narrowInto_of_execTryNew rd s hrep (execTryNew_outOfRange rd (s.offering z) (hdin.symm ▸ h))

end Narrowing

/-- Settles O60, from what narrowing does with an integer in and out of the narrow range. -/
theorem narrowingFailsExactlyOutsideTheRange : Obligations.NarrowingFailsExactlyOutsideTheRange := by
  intro rd z s
  refine ⟨fun hout => narrowInto_outside rd s (not_narrow_of_outside s.cfg hout), fun hlo hhi => ?_⟩
  refine ⟨_, narrowInto_of_narrow rd s ⟨hlo, hhi⟩, ?_, rfl, fun r hr => ?_⟩
  · exact (congrArg (value s.cfg) (readReg_writeReg_self (s.offering z) rd _)).trans
      (value_enc_of_narrow s.cfg ⟨hlo, hhi⟩)
  · exact congrArg BitVec.toNat (readReg_writeReg_other (s.offering z) rd (enc s.cfg z) hr)

end Sys2Proof.Machine
end

section
/-! PROOFS. The wrapping function (00_scope.md section 5): the narrow range is a full set of residues. -/

namespace Sys2Proof.Machine

/-- Settles O11: `wrap z` is in the narrow range and has the residue of z, and the range holds one such integer. -/
theorem wrapIsTheUniqueResidue : Obligations.WrapIsTheUniqueResidue := by
  intro c y z
  constructor
  · rintro rfl
    obtain ⟨hlo, hhi⟩ := wrap_bounds c z
    exact ⟨hlo, hhi, wrap_modEq c z⟩
  · rintro ⟨hlo, hhi, hmod⟩
    have hres : y % ((2 ^ c.N : Nat) : Int) = z % ((2 ^ c.N : Nat) : Int) := by exact_mod_cast hmod
    exact (wrap_congr c hres).symm.trans (wrap_of_narrow c ⟨hlo, hhi⟩)

end Sys2Proof.Machine
end

section
/-! PROOFS. Taking a fatal fault (60_exceptions.md R141, R142, R146): which commands and words do it, and what it
writes. -/

namespace Sys2Proof.Machine

/-- Settles O17: the three writes are the definition of the shared operation. -/
theorem fatalFaultMakesThreeWrites : Obligations.FatalFaultMakesThreeWrites := fun _ _ => rfl

theorem exec_of_fatalCause {i : Instr} {s : State} {C : Cause} (h : fatalCause i s = some C) :
    exec i s = .next (s.takeFatal C) := by
  rcases exec_cases i s with ⟨C', hC', hx⟩ | ⟨hnone, -⟩
  · rwa [Option.some.inj (hC'.symm.trans h)] at hx
  · rw [h] at hnone
    cases hnone

theorem exec_of_no_fatalCause {i : Instr} {s : State} (h : fatalCause i s = none) :
    ∃ t, exec i s = .next t ∧ Completes i s t := by
  rcases exec_cases i s with ⟨C, hC, -⟩ | ⟨-, hcomp⟩
  · rw [h] at hC
    cases hC
  · exact hcomp

/-- Settles O18: a command faults by its table row or completes, which writes no field of the fault record. -/
theorem faultsAreExactlyThoseOfTheTable : Obligations.FaultsAreExactlyThoseOfTheTable := by
  intro i s
  refine ⟨fun _ => exec_of_fatalCause, fun h => ?_, fun _ => acceptWord_illegal s, rfl, rfl, rfl, rfl, rfl⟩
  obtain ⟨t, hx, ht⟩ := exec_of_no_fatalCause h
  obtain ⟨-, -, -, hrecord⟩ := ht.changes
  simp only [Prod.mk.injEq] at hrecord
  exact ⟨t, hx, hrecord⟩

/-- A word that matches no row of the table is no command (R54, R60). -/
theorem decode_ne_ok_of_no_row {w : CmdWord} (h : ∀ r ∈ opTable, ¬r.matchesWord w) (i : Instr) : decode w ≠ .ok i := by
  intro hi
  obtain ⟨r, hr, -, hmatch⟩ := (exists_decode_iff_exists_row w i.mnemonic).mp ⟨i, hi, rfl⟩
  exact h r hr hmatch

/-- Settles O49: the edge is accepted, and its word is no command. -/
theorem illegalWordsHaltTheUnit : Obligations.IllegalWordsHaltTheUnit := by
  intro s e rest hc hr hv hs hh hrow
  exact (step_accepts s e rest hc hr hs hv hh).trans
    (acceptWord_illegal (s.sample e rest) (decode_ne_ok_of_no_row hrow))

end Sys2Proof.Machine
end

section
/-! PROOFS. The halted unit (60_exceptions.md R147, R149): it accepts nothing, and a reset edge alone brings it back. -/

namespace Sys2Proof.Machine

/-- A run of a halted unit without a reset edge uses up its edges, each of which changes what the ports carry. -/
theorem run_of_halted (k : Nat) {s : State} (hs : s.everReset = true) (hh : s.status.halt = true)
    (hr : ∀ e ∈ s.coming, e.rst = false) :
    ∃ (w : CmdWord) (d : Word s.cfg),
      Sys2Proof.core.run k s = .next { s with cmd := w, din := d, coming := s.coming.drop k } := by
  induction k generalizing s with
  | zero => exact ⟨s.cmd, s.din, rfl⟩
  | succ k ih =>
    by_cases hc : s.coming = []
    · obtain ⟨w, d, hrun⟩ := ih hs hh hr
      refine ⟨w, d, ?_⟩
      rw [run_succ k (step_quiet s hc hs), hrun, hc, List.drop_nil, List.drop_nil]
    · obtain ⟨e, rest, hc⟩ := List.exists_cons_of_ne_nil hc
      rw [hc, List.forall_mem_cons] at hr
      obtain ⟨hre, hrrest⟩ := hr
      obtain ⟨w, d, hrun⟩ := ih (s := s.sample e rest) hs hh hrrest
      refine ⟨w, d, ?_⟩
      rw [run_succ k (step_ignored s e rest hc hre hs (.inr hh)), hrun, hc]
      rfl

/-- Settles O51: `cmd_ready` is 0 while `HALT` is 1, and no edge is accepted. -/
theorem haltedUnitAcceptsNothing : Obligations.HaltedUnitAcceptsNothing := by
  intro s k hs hh hr
  exact ⟨fun b => by simp [State.cmdReady, State.halted, hh], run_of_halted k hs hh hr⟩

/-- Settles O52: a halted unit accepts no word, so its step is quiet, ignored or a reset. -/
theorem onlyResetLeavesHalt : Obligations.OnlyResetLeavesHalt := by
  intro s t h hs ht
  cases stepsTo_of_step h with
  | reset e rest hc hr => exact ⟨e, rest, hc, hr, rfl, rfl⟩
  | quiet | ignored => exact absurd (ht.symm.trans hs) Bool.false_ne_true
  | illegal _ _ _ _ _ _ hh | faulted _ _ _ _ _ _ hh | completed _ _ _ _ _ _ hh =>
    exact absurd (hh.symm.trans hs) Bool.false_ne_true

end Sys2Proof.Machine
end

section
/-! PROOFS. Reset (70_reset_and_hazards.md R160 to R162): what a reset edge gives, that it meets the invariant, and
that no other edge has a meaning before it. -/

namespace Sys2Proof.Machine

/-- Settles O50: a reset edge is sampled and resets the unit, whatever else it carries. -/
theorem resetEdgeGivesTheResetState : Obligations.ResetEdgeGivesTheResetState := by
  intro s e rest hc hr
  have hready : s.cmdReady e.rst = false := by rw [hr, State.cmdReady, Bool.not_true, Bool.false_and]
  exact ⟨step_reset s e rest hc hr, hready, statusWordLayout.2, rfl, rfl⟩

/-- Settles O53: every way to a next state needs a unit that has been reset, or a reset edge. -/
theorem nothingRunsBeforeTheFirstReset : Obligations.NothingRunsBeforeTheFirstReset := by
  intro s hs hr
  rcases step_cases s with ⟨-, -, hrefused⟩ | ⟨t, -, hcase⟩
  · exact hrefused
  · cases hcase with
    | reset e rest hc hrst => exact absurd ((hr e rest hc).symm.trans hrst) Bool.false_ne_true
    | quiet _ hs' | ignored _ _ _ _ hs' | illegal _ _ _ _ hs' | faulted _ _ _ _ hs' | completed _ _ _ _ hs' =>
      exact absurd (hs.symm.trans hs') Bool.false_ne_true

/-- Resetting a unit that has just been reset gives that state again, so it meets the invariant. -/
theorem inv_resetOf (c : Config) (x : Vector (Word c) 16) : (State.resetOf c x).Inv :=
  inv_resetUnit (s := State.resetOf c x) x

/-- Settles O55: `State.reset` is one of the reset states. -/
theorem resetSatisfiesTheInvariant : Obligations.ResetSatisfiesTheInvariant :=
  ⟨inv_resetOf, inv_resetOf Config.default _⟩

end Sys2Proof.Machine
end

section
/-! PROOFS. A program that keeps the duty of R163 cannot see what reset left in the value registers (R161): two units
that differ in registers not yet constructed run alike. -/

namespace Sys2Proof.Machine

section Duty

variable {c : Config} {known : List Reg} {e : Edge c.W.bits} {rest : List (Edge c.W.bits)}

/-- The registers constructed once a command has completed (R163): its destination, but for a `TRYNEW` that fails. -/
def knownAfter (c : Config) (din : Word c) (known : List Reg) (i : Instr) : List Reg :=
  match i with
  | .tryNew d => if inRange c din then d :: known else known
  | _ => i.dest.toList ++ known

theorem rst_of_constructsBeforeReading (h : constructsBeforeReading c known (e :: rest) = true) : e.rst = false := by
  cases hr : e.rst with
  | true => simp [constructsBeforeReading, hr] at h
  | false => rfl

theorem constructsBeforeReading_idle (hr : e.rst = false) (hv : e.cmdValid = false) :
    constructsBeforeReading c known (e :: rest) = constructsBeforeReading c known rest := by
  simp [constructsBeforeReading, hr, hv]

/-- What the duty asks of an edge that presents a command (R163). -/
theorem constructsBeforeReading_command {i : Instr} (hr : e.rst = false) (hv : e.cmdValid = true)
    (hi : decode e.cmd = .ok i) : constructsBeforeReading c known (e :: rest) = true ↔
      (∀ r ∈ i.reads, r ∈ known) ∧ constructsBeforeReading c (knownAfter c e.din known i) rest = true := by
  have heq : constructsBeforeReading c known (e :: rest) =
      (i.reads.all (fun r => known.contains r) && constructsBeforeReading c (knownAfter c e.din known i) rest) := by
    rw [constructsBeforeReading, hr, hv, hi]
    rfl
  simp [heq]

end Duty

/-- Two register files hold the same words in the registers of a list. -/
def AgreeOn {c : Config} (known : List Reg) (x y : Vector (Word c) 16) : Prop := ∀ r ∈ known, x.get r = y.get r

/-- Writing one word to a register of both files makes it one in which they agree. -/
theorem agreeOn_set {c : Config} {known : List Reg} {x y : Vector (Word c) 16} (h : AgreeOn known x y) (d : Reg)
    (v : Word c) : AgreeOn (d :: known) (x.set d.val v) (y.set d.val v) := by
  intro r hr
  simp only [Vector.get_eq_getElem, Vector.getElem_set]
  split
  · rfl
  · next hne =>
    have hrd : r ≠ d := fun he => hne (congrArg Fin.val he.symm)
    exact h r ((List.mem_cons.mp hr).resolve_left hrd)

/-- The host cannot tell a unit from the one with the register file `y`, now or later. -/
inductive Indistinct (s : State) (y : Vector (Word s.cfg) 16) : Prop where
  /-- The registers are the same. -/
  | equal (h : s.x = y)
  /-- The unit reads no register before a reset edge, and that edge brings the same words to both. -/
  | halted (h : s.status.halt = true)
  /-- Whatever the host reads before the next reset or fault, it reads from registers that are the same. -/
  | duty (known : List Reg) (hk : AgreeOn known s.x y) (hd : constructsBeforeReading s.cfg known s.coming = true)

/-- Two outcomes are next states that differ in register words only, and the host cannot tell them apart. -/
def IndistinctResults (a b : Result) : Prop :=
  ∃ (t : State) (z : Vector (Word t.cfg) 16), a = .next t ∧ b = .next { t with x := z } ∧ Indistinct t z

/-- A decision that comes out the same in both units keeps results indistinct. -/
theorem IndistinctResults.ite {p q : Prop} [Decidable p] [Decidable q] {a a' b b' : Result} (hpq : p = q)
    (ha : IndistinctResults a a') (hb : IndistinctResults b b') :
    IndistinctResults (if p then a else b) (if q then a' else b') := by
  by_cases hp : p
  · rwa [if_pos hp, if_pos (hpq ▸ hp)]
  · rwa [if_neg hp, if_neg (hpq ▸ hp)]

section Commands

variable {s : State} {y : Vector (Word s.cfg) 16} {known : List Reg}

theorem raiseFatal_indistinct (C : Cause) : IndistinctResults (raiseFatal C s) (raiseFatal C { s with x := y }) :=
  ⟨s.takeFatal C, y, rfl, rfl, .halted rfl⟩

variable (hk : AgreeOn known s.x y)
include hk

/-- What is computed from one constructed register is the same in both units. -/
theorem source_congr {β : Sort*} (f : Word s.cfg → β) {a : Reg} (h : ∀ r ∈ [a], r ∈ known) :
    f (s.readReg a) = f (State.readReg { s with x := y } a) :=
  congrArg f (hk a (h a List.mem_cons_self))

/-- What is computed from two constructed registers is the same in both units. -/
theorem sources_congr {β : Sort*} (f : Word s.cfg → Word s.cfg → β) {a b : Reg} (h : ∀ r ∈ [a, b], r ∈ known) :
    f (s.readReg a) (s.readReg b) = f (State.readReg { s with x := y } a) (State.readReg { s with x := y } b) :=
  congrArg₂ f (hk a (h a List.mem_cons_self)) (hk b (h b (List.mem_cons_of_mem a List.mem_cons_self)))

theorem completeWith_indistinct {d : Reg} (hd : constructsBeforeReading s.cfg (d :: known) s.coming = true)
    {v w : Word s.cfg} (hv : v = w) :
    IndistinctResults (completeWith d s v) (completeWith d { s with x := y } w) := by
  subst hv
  exact ⟨s.writeReg d v, y.set d.val v, rfl, rfl, .duty (d :: known) (agreeOn_set hk d v) hd⟩

theorem writeStatus_indistinct (hd : constructsBeforeReading s.cfg known s.coming = true) {f g : Status}
    (hf : f = g) : IndistinctResults (.next (s.writeStatus f)) (.next (State.writeStatus { s with x := y } g)) := by
  subst hf
  exact ⟨s.writeStatus f, y, rfl, rfl, .duty known hk hd⟩

theorem writeDout_indistinct (hd : constructsBeforeReading s.cfg known s.coming = true) {v w : Word s.cfg}
    (hv : v = w) : IndistinctResults (.next (s.writeDout v)) (.next (State.writeDout { s with x := y } w)) := by
  subst hv
  exact ⟨s.writeDout v, y, rfl, rfl, .duty known hk hd⟩

/-- `TRYNEW` answers alike, and constructs its register in both units or in neither (R71, R163). -/
theorem execTryNew_indistinct {d : Reg}
    (hd : constructsBeforeReading s.cfg (knownAfter s.cfg s.din known (.tryNew d)) s.coming = true) :
    IndistinctResults (execTryNew d s) (execTryNew d { s with x := y }) := by
  by_cases hin : inRange s.cfg s.din = true
  · rw [knownAfter, if_pos hin] at hd
    have hset := writeStatus_indistinct (s := s.writeReg d s.din) (agreeOn_set hk d s.din) hd
      (rfl : s.status.withRerr false = s.status.withRerr false)
    unfold execTryNew
    rwa [if_pos hin, if_pos hin]
  · rw [knownAfter, if_neg hin] at hd
    have hsame := writeStatus_indistinct hk hd (rfl : s.status.withRerr true = s.status.withRerr true)
    unfold execTryNew
    rwa [if_neg hin, if_neg hin]

/-- No command whose sources are constructed tells one unit from the other: it decides and computes from them. -/
theorem exec_indistinct {i : Instr} (hr : ∀ r ∈ i.reads, r ∈ known)
    (hd : constructsBeforeReading s.cfg (knownAfter s.cfg s.din known i) s.coming = true) :
    IndistinctResults (exec i s) (exec i { s with x := y }) := by
  cases i with
  | tryNew d => exact execTryNew_indistinct hk hd
  | new d => exact .ite rfl (completeWith_indistinct hk hd rfl) (raiseFatal_indistinct .range)
  | tNew d | rawNew d | ldMin d | ldMax d => exact completeWith_indistinct hk hd rfl
  | copy d a => exact completeWith_indistinct hk hd (source_congr hk id hr)
  | mask d a => exact completeWith_indistinct hk hd (source_congr hk (mask s.cfg) hr)
  | not d a => exact completeWith_indistinct hk hd (source_congr hk (fun v => mask s.cfg (~~~(mask s.cfg v))) hr)
  | shl d a k =>
    exact .ite rfl (raiseFatal_indistinct .shift) (completeWith_indistinct hk hd
      (source_congr hk (fun v => mask s.cfg (shiftLeftWord s.cfg (mask s.cfg v) k.toNat)) hr))
  | shr d a k =>
    exact .ite rfl (raiseFatal_indistinct .shift) (completeWith_indistinct hk hd
      (source_congr hk (fun v => mask s.cfg (shiftRightWord s.cfg (mask s.cfg v) k.toNat)) hr))
  | add d a b =>
    exact .ite (sources_congr hk (fun v w => overflows s.cfg (value s.cfg v + value s.cfg w) = true) hr)
      (raiseFatal_indistinct .overflow)
      (completeWith_indistinct hk hd (sources_congr hk (wrappingAdd s.cfg) hr))
  | sub d a b =>
    exact .ite (sources_congr hk (fun v w => overflows s.cfg (value s.cfg v - value s.cfg w) = true) hr)
      (raiseFatal_indistinct .overflow)
      (completeWith_indistinct hk hd (sources_congr hk (wrappingSub s.cfg) hr))
  | wadd d a b => exact completeWith_indistinct hk hd (sources_congr hk (wrappingAdd s.cfg) hr)
  | wsub d a b => exact completeWith_indistinct hk hd (sources_congr hk (wrappingSub s.cfg) hr)
  | and d a b => exact completeWith_indistinct hk hd (sources_congr hk (fun v w => mask s.cfg v &&& mask s.cfg w) hr)
  | or d a b => exact completeWith_indistinct hk hd (sources_congr hk (fun v w => mask s.cfg v ||| mask s.cfg w) hr)
  | xor d a b => exact completeWith_indistinct hk hd (sources_congr hk (fun v w => mask s.cfg v ^^^ mask s.cfg w) hr)
  | cmp a b => exact writeStatus_indistinct hk hd (sources_congr hk (s.status.compare s.cfg) hr)
  | get a => exact writeDout_indistinct hk hd (source_congr hk (mask s.cfg) hr)

end Commands

section Steps

variable {s : State} {y : Vector (Word s.cfg) 16} (hs : s.everReset = true)
include hs

/-- An edge that the duty allows: it is idle, or its word is illegal, or its command reads constructed registers. -/
theorem step_indistinct_of_duty {known : List Reg} (hk : AgreeOn known s.x y) (hh : s.status.halt = false)
    {e : Edge s.cfg.W.bits} {rest : List (Edge s.cfg.W.bits)} (hc : s.coming = e :: rest)
    (hd : constructsBeforeReading s.cfg known (e :: rest) = true) :
    IndistinctResults (step s) (step { s with x := y }) := by
  have hr := rst_of_constructsBeforeReading hd
  cases hv : e.cmdValid with
  | false =>
    rw [constructsBeforeReading_idle hr hv] at hd
    exact ⟨s.sample e rest, y, step_ignored s e rest hc hr hs (.inl hv),
      step_ignored { s with x := y } e rest hc hr hs (.inl hv), .duty known hk hd⟩
  | true =>
    rw [step_accepts s e rest hc hr hs hv hh, step_accepts { s with x := y } e rest hc hr hs hv hh, acceptWord,
      acceptWord]
    cases hi : decode e.cmd with
    | error => exact raiseFatal_indistinct (s := s.sample e rest) .illegal
    | ok i =>
      obtain ⟨hreads, hrest⟩ := (constructsBeforeReading_command hr hv hi).mp hd
      exact exec_indistinct (s := s.sample e rest) hk hreads hrest

/-- A halted unit ignores every edge but a reset edge, which gives both units the same registers (R147, R160). -/
theorem step_indistinct_of_halted (hh : s.status.halt = true) {e : Edge s.cfg.W.bits}
    {rest : List (Edge s.cfg.W.bits)} (hc : s.coming = e :: rest) :
    IndistinctResults (step s) (step { s with x := y }) := by
  cases hr : e.rst with
  | true =>
    exact ⟨(s.sample e rest).resetUnit e.fresh, e.fresh, step_reset s e rest hc hr,
      step_reset { s with x := y } e rest hc hr, .equal rfl⟩
  | false =>
    exact ⟨s.sample e rest, y, step_ignored s e rest hc hr hs (.inr hh),
      step_ignored { s with x := y } e rest hc hr hs (.inr hh), .halted hh⟩

/-- No step tells one unit from the other, and what comes after it does not either. -/
theorem step_indistinct (h : Indistinct s y) : IndistinctResults (step s) (step { s with x := y }) := by
  by_cases hc : s.coming = []
  · exact ⟨s, y, step_quiet s hc hs, step_quiet { s with x := y } hc hs, h⟩
  obtain ⟨e, rest, hc⟩ := List.exists_cons_of_ne_nil hc
  by_cases hh : s.status.halt = true
  · exact step_indistinct_of_halted hs hh hc
  cases h with
  | equal h =>
    subst h
    obtain ⟨t, ht, -⟩ := unitNeverStopsByItself s hs
    exact ⟨t, t.x, ht, ht, .equal rfl⟩
  | halted h => exact absurd h hh
  | duty known hk hd => exact step_indistinct_of_duty hs hk (Bool.eq_false_of_not_eq_true hh) hc (hc ▸ hd)

end Steps

/-- Runs of any length from units the host cannot tell apart end in two such units (R161). -/
theorem run_indistinct (k : Nat) {s : State} {y : Vector (Word s.cfg) 16} (hs : s.everReset = true)
    (h : Indistinct s y) :
    IndistinctResults (Sys2Proof.core.run k s) (Sys2Proof.core.run k { s with x := y }) := by
  induction k generalizing s with
  | zero => exact ⟨s, y, rfl, rfl, h⟩
  | succ k ih =>
    obtain ⟨t, z, ht, hz, hind⟩ := step_indistinct hs h
    rw [run_succ k ht, run_succ k hz]
    exact ih ((stepsTo_of_step ht).everReset hs) hind

/-- Settles O58: after reset no register is constructed, and the host keeps its duty. -/
theorem constructedProgramsIgnoreResetContents : Obligations.ConstructedProgramsIgnoreResetContents := by
  intro c es x y k hd
  have hstart : Indistinct { State.resetOf c x with coming := es } y :=
    .duty [] (fun _ hr => absurd hr List.not_mem_nil) hd
  obtain ⟨t, z, ht, hz, -⟩ := run_indistinct k rfl hstart
  exact ⟨t, z, ht, hz⟩

end Sys2Proof.Machine
end
